-- ==== Sys2Proof/Word.lean ====
section
/-! DEFINITION. The word types of the engine (00_scope.md rules R7, R8, R11; 10_state.md rule R20).
All values are unsigned; the widths are the manual's own. -/

namespace Sys2Proof

/-- A byte: one `BLOCK` byte, one data byte, one digest byte (R8, R11). -/
abbrev Byte := BitVec 8

/-- A 64-bit word (`WORD_BITS`, R7): one word of `ACC`, of the block, of a round key, of the cipher state. -/
abbrev Word := BitVec 64

/-- The command word `CMD` (`CMD_BITS`, R7; R70). -/
abbrev CmdWord := BitVec 32

/-- The bit count `n` of `ABSORB` (`BITCOUNT_BITS`, R7; R72). -/
abbrev BitCount := BitVec 64

/-- Eight 64-bit words (`NWORDS`, R7): `ACC`, the block words, a round key, the cipher state. -/
abbrev Words := Vector Word 8

/-- The 64-byte working buffer (`BLOCK_BYTES`, R7; R22). -/
abbrev Block := Vector Byte 64

/-- The 64 digest bytes (`DIGEST_BYTES`, R7; R52). -/
abbrev Digest := Vector Byte 64

end Sys2Proof
end

