-- ==== Sys2Proof/Config.lean ====
section
/-! DEFINITION. What is fixed for the machine: the parameter `PARTIAL_ALIGN` (00_scope.md rule R7) and the free
values, which the manual leaves open. The other parameters of R7 are the widths of Word.lean. -/

namespace Sys2Proof

/-- Where the `n` bits of an `ABSORB` lie in its data bytes (R7, R146, R147). -/
inductive PartialAlign where
  /-- The first `n` bits of the data (R146). -/
  | left
  /-- The last `n` bits of the data (R147). -/
  | right
deriving DecidableEq, Repr

/-- `PARTIAL_ALIGN` of this hardware is `LEFT` (R7, R146; 90_conflicts.md C2). It is the value of `State.reset`; the
machine takes the parameter from its state, so that a state with `RIGHT` runs under `RIGHT`
(notes/assumptions/6.md). -/
def Config.partialAlign : PartialAlign := .left

/-! The values of the buffer registers after a successful `FINALIZE` are unspecified (R37, R178): free values,
drawn fresh at every `FINALIZE` by a counter of the model (notes/assumptions/3.md). -/

/-- What `BLOCK` holds after the `k`-th draw: any value (R37). -/
opaque Config.freeBlock : Nat → Block

/-- What `FILLBITS` holds after the `k`-th draw: any value (R37). -/
opaque Config.freeFillBits : Nat → BitVec 10

/-- What `BYTEPOS` holds after the `k`-th draw: any value (R37). -/
opaque Config.freeBytePos : Nat → BitVec 7

/-- What `TOTALBITS` holds after the `k`-th draw: any value (R37). -/
opaque Config.freeTotalBits : Nat → BitVec 256

end Sys2Proof
end

