-- ==== Sys2Proof/Syntax.lean ====
section
/-! DEFINITION. The commands of the engine: one constructor for each row of spec/opcode_table.json. -/

namespace Sys2Proof

/-- What the engine can be asked to perform (30_encoding.md rules R71, R74, R75).
Three commands the host issues, the class of command words the decoder does not accept, and the internal
operation COMPRESS, which is a row of the opcode table with no host encoding (R74, R85). -/
inductive Instr where
  /-- `INIT` (R140): create a zeroed HashState. -/
  | init
  /-- `ABSORB n, DATA` (R141): append `n` bits, carried by the bytes `DataIn(0)`, `DataIn(1)`, ... -/
  | absorb (bitCount : BitCount) (data : List Byte)
  /-- `FINALIZE` (R170): pad, append the length, compress, return the digest. -/
  | finalize
  /-- COMPRESS (R128): internal, never decoded from a frame. -/
  | compress
  /-- The illegal class (R75): a command word that is none of the three. -/
  | illegal (cmd : CmdWord)
deriving DecidableEq, Repr

end Sys2Proof
end

