-- ==== Sys2Proof/WellFormed.lean ====
section
/-! DEFINITION. Which instruction terms stand for something the engine can be given. -/

namespace Sys2Proof

/-- `ceil(n / 8)`: the number of data bytes of an `ABSORB` of `n` bits (R51, R72). -/
def dataLength (n : BitCount) : Nat := (n.toNat + 7) / 8

/-- The three command words of the opcode map (R74). -/
def isCommandWord (cmd : CmdWord) : Bool := cmd == 0x00000001 || cmd == 0x00000002 || cmd == 0x00000003

/-- Well-formed instructions: an `ABSORB` carries exactly `ceil(n/8)` data bytes (R72, R78), and a word of the
illegal class is not one of the three command words (R75). -/
def Instr.wf : Instr → Bool
  | .init => true
  | .absorb n data => data.length == dataLength n
  | .finalize => true
  | .compress => true
  | .illegal cmd => !isCommandWord cmd

end Sys2Proof
end

