-- ==== Sys2Proof/Decode.lean ====
section
/-! DEFINITION. Command frames: the decoder, total on any bytes, and the encoder (30_encoding.md).
A frame is the bytes of one command as the host's byte stream carries them (R71). -/

namespace Sys2Proof

/-- Why bytes are not one well-formed frame (R78). -/
inductive FrameError where
  /-- The frame ends before the operands its `OP` needs are complete. -/
  | cutShort
  /-- Bytes are left over after the operands the `OP` needs. -/
  | excessBytes
deriving DecidableEq, Repr

/-- The three commands the decoder accepts (R74). -/
inductive Op where
  | init | absorb | finalize
deriving DecidableEq, Repr

/-! ### Fields and byte order -/

/-- A 32-bit word from its four bytes, most significant first (R10, R71). -/
def be32 (b0 b1 b2 b3 : Byte) : CmdWord := b0 ++ b1 ++ b2 ++ b3

/-- A 64-bit word from its eight bytes, most significant first: `BE64` (R10, R71). -/
def be64 (b0 b1 b2 b3 b4 b5 b6 b7 : Byte) : Word := b0 ++ b1 ++ b2 ++ b3 ++ b4 ++ b5 ++ b6 ++ b7

/-- The four bytes of a command word, most significant first (R71). -/
def be32Bytes (w : CmdWord) : List Byte :=
  [w.extractLsb' 24 8, w.extractLsb' 16 8, w.extractLsb' 8 8, w.extractLsb' 0 8]

/-- The eight bytes of a 64-bit word, most significant first: `bytesBE64` (R10, R71). -/
def be64Bytes (w : Word) : List Byte :=
  [w.extractLsb' 56 8, w.extractLsb' 48 8, w.extractLsb' 40 8, w.extractLsb' 32 8,
   w.extractLsb' 24 8, w.extractLsb' 16 8, w.extractLsb' 8 8, w.extractLsb' 0 8]

/-- `OP = CMD[7:0]` (R70). -/
def opField (cmd : CmdWord) : BitVec 8 := cmd.extractLsb' 0 8

/-- `RSV = CMD[31:8]` (R70). -/
def rsvField (cmd : CmdWord) : BitVec 24 := cmd.extractLsb' 8 24

/-! ### The decoder -/

/-- The command a 32-bit word stands for, or none for an illegal word (the pseudocode of R76). -/
def decodeCmd (cmd : CmdWord) : Option Op :=
  if rsvField cmd ≠ 0 then none
  else if opField cmd = 0x01 then some .init
  else if opField cmd = 0x02 then some .absorb
  else if opField cmd = 0x03 then some .finalize
  else none

/-- The operands of `ABSORB`: `BITCOUNT`, 8 bytes, then `ceil(BITCOUNT/8)` data bytes (R71, R72). -/
def decodeAbsorb : List Byte → Except FrameError (Instr × List Byte)
  | b0 :: b1 :: b2 :: b3 :: b4 :: b5 :: b6 :: b7 :: rest =>
    let n := be64 b0 b1 b2 b3 b4 b5 b6 b7
    if rest.length < dataLength n then .error .cutShort
    else .ok (.absorb n (rest.take (dataLength n)), rest.drop (dataLength n))
  | _ => .error .cutShort

/-- One instruction from the front of a byte stream, and the bytes after it (R71, R76, R77).
After an illegal word no operand is read (R71). -/
def decode : List Byte → Except FrameError (Instr × List Byte)
  | b0 :: b1 :: b2 :: b3 :: rest =>
    match decodeCmd (be32 b0 b1 b2 b3) with
    | some .init => .ok (.init, rest)
    | some .absorb => decodeAbsorb rest
    | some .finalize => .ok (.finalize, rest)
    | none => .ok (.illegal (be32 b0 b1 b2 b3), rest)
  | _ => .error .cutShort

/-- The instruction a frame carries: the frame is its bytes, no fewer and no more (R77, R78). -/
def decodeFrame (frame : List Byte) : Except FrameError Instr :=
  match decode frame with
  | .ok (i, []) => .ok i
  | .ok (_, _ :: _) => .error .excessBytes
  | .error e => .error e

/-- A byte stream cut into its instructions, at most `fuel` of them (R71: the form of the programs of
95_test_vectors.md section 8). -/
def decodeStreamAux : Nat → List Byte → Except FrameError (List Instr)
  | _, [] => .ok []
  | 0, _ :: _ => .error .excessBytes
  | fuel + 1, b :: bs =>
    match decode (b :: bs) with
    | .error e => .error e
    | .ok (i, rest) =>
      match decodeStreamAux fuel rest with
      | .error e => .error e
      | .ok is => .ok (i :: is)

/-- A byte stream cut into its instructions: every frame takes at least one byte, so its length is fuel enough. -/
def decodeStream (bytes : List Byte) : Except FrameError (List Instr) := decodeStreamAux bytes.length bytes

/-! ### The encoder -/

/-- The command word of an instruction; none for COMPRESS, which has no encoding (R74, R85). -/
def cmdWord : Instr → Option CmdWord
  | .init => some 0x00000001
  | .absorb _ _ => some 0x00000002
  | .finalize => some 0x00000003
  | .compress => none
  | .illegal cmd => some cmd

/-- The operand bytes that follow the command word (R71). -/
def operandBytes : Instr → List Byte
  | .absorb n data => be64Bytes n ++ data
  | .init | .finalize | .compress | .illegal _ => []

/-- The frame of an instruction (R71); none for COMPRESS. -/
def encode (i : Instr) : Option (List Byte) := (cmdWord i).map fun cmd => be32Bytes cmd ++ operandBytes i

/-- The number of bytes of an instruction's frame (R77). -/
def frameLength : Instr → Nat
  | .absorb n _ => 4 + 8 + dataLength n
  | .init | .finalize | .compress | .illegal _ => 4

/-! ### Words numbered as the opcode table numbers them -/

/-- The frame of the instruction whose bits are the low `nbits` bits of `w`, all higher bits 0: `CMD` in bits
31..0, then for `ABSORB` `BITCOUNT` in bits 95..32 and data byte `k` in the 8 bits from bit `96 + 8k` on. -/
def tableFrame (nbits w : Nat) : List Byte :=
  let v := w % 2 ^ nbits
  let cmd := BitVec.ofNat 32 v
  match decodeCmd cmd with
  | some .absorb =>
    let n := BitVec.ofNat 64 (v >>> 32)
    be32Bytes cmd ++ be64Bytes n ++ (List.range (dataLength n)).map fun k => BitVec.ofNat 8 (v >>> (96 + 8 * k))
  | some .init | some .finalize | none => be32Bytes cmd

/-- The instruction the decoder reads from a word numbered as the opcode table numbers it. -/
def decodeTableWord (nbits w : Nat) : Option Instr :=
  match decodeFrame (tableFrame nbits w) with
  | .ok i => some i
  | .error _ => none

end Sys2Proof
end

