-- ==== Sys2Proof/Machine/State.lean ====
section
/-! DEFINITION. The state of one engine instance (10_state.md), the host's side of its channels, and the ways a
step can stop. The constant ROM is fixed for the machine and never written (R33, R100): it is Machine/Tables.lean. -/

namespace Sys2Proof.Machine

/-- `PHASE` (R26). The value 3 of the 2-bit register is never produced. -/
inductive Phase where
  /-- No HashState exists: after reset. -/
  | idle
  /-- A HashState exists and may absorb and be finalized. -/
  | active
  /-- The HashState has been finalized. -/
  | finalized
deriving DecidableEq, Repr

/-- The result code of a command (R28). The value 3 of the 2-bit field is never produced. -/
inductive Code where
  /-- 0. -/
  | ok
  /-- 1: the command needs a HashState in phase `ACTIVE` (R200). -/
  | errInvalidState
  /-- 2: the command word is not one of the three (R200). -/
  | errIllegalCommand
deriving DecidableEq, Repr

/-- The response of a command: its code and, for a `FINALIZE` that ended with `OK`, the digest (R73). -/
structure Response where
  code   : Code
  digest : Option Digest
deriving DecidableEq, Repr

/-- What reaches the engine from outside. -/
inductive HostInput where
  /-- One command frame, as bytes (R71). -/
  | frame (bytes : List Byte)
  /-- Power-on or external reset (R230). -/
  | reset
deriving DecidableEq, Repr

/-- The state of one engine instance (R20), with its parameter, the host's side of its channels and three fields of the
model's own.
`STATUS` is not stored a second time: it is the view `State.status` of `phase`, `code` and `err` (Flags.lean). -/
structure State where
  /-- `ACC[0..7]` (R21). -/
  acc          : Words
  /-- `BLOCK[0..63]` (R22). -/
  block        : Block
  /-- `FILLBITS`, 10 bits (R23). -/
  fillBits     : BitVec 10
  /-- `BYTEPOS`, 7 bits (R24). -/
  bytePos      : BitVec 7
  /-- `TOTALBITS`, 256 bits (R25). -/
  totalBits    : BitVec 256
  /-- `PHASE` (R26), which `STATUS.PHASE` copies. -/
  phase        : Phase
  /-- `STATUS.CODE` (R28). -/
  code         : Code
  /-- `STATUS.ERR` (R29). -/
  err          : Bool
  /-- The parameter `PARTIAL_ALIGN` of this engine (R7): no register, and no step writes it (notes/assumptions/6.md). -/
  partialAlign : PartialAlign
  /-- What the host has sent and the engine has not yet taken, oldest first: the command channel with the data-in
  channel (R51, R62, R71), and reset. -/
  inputs       : List HostInput
  /-- What the engine has returned, oldest first: the responses with the digest-out channel (R52, R73). -/
  responses    : List Response
  /-- The model's own: how many times free values have been drawn (notes/assumptions/3.md). -/
  freeCount    : Nat
  /-- The model's own: how many COMPRESS have run, the operation count of R154, R179, R240. -/
  compressions : Nat
  /-- The model's own: the refusal mark of R243. -/
  refusalMark  : Bool
deriving DecidableEq, Repr

/-- The machine stops with a fault: it never does. Both errors of the engine are reported in `STATUS` and the
response and the machine goes on (R204, R208), and nothing else fails (R201). -/
inductive Fault where
deriving DecidableEq, Repr

/-- Why a step has no meaning. -/
inductive Refusal where
  /-- Raised by an arm of `exec` whose instruction has no meaning yet. Safe: the machine stops. -/
  | notModelled (mnemonic : String)
  /-- Raised by `step` on a frame that is not well formed, and by the meaning of an `ABSORB` term whose data length
  is not `ceil(n/8)`: the engine gives it no meaning and a model refuses it (R78, R216). Safe: the machine stops. -/
  | malformedFrame (why : FrameError)
deriving DecidableEq, Repr

/-- The machine right after reset (R38, R230), with nothing sent and nothing returned. -/
def State.reset : State where
  acc := Vector.replicate 8 0
  block := Vector.replicate 64 0
  fillBits := 0
  bytePos := 0
  totalBits := 0
  phase := .idle
  code := .ok
  err := false
  partialAlign := Config.partialAlign
  inputs := []
  responses := []
  freeCount := 0
  compressions := 0
  refusalMark := false

end Sys2Proof.Machine
end

