-- ==== Sys2Proof/Machine/Flags.lean ====
section
/-! DEFINITION. `STATUS` and its fields (10_state.md rules R26 to R29). Who writes them: `respondOk` and `raiseError`
of Ops.lean, `INIT` and `FINALIZE` (`PHASE`), and reset. -/

namespace Sys2Proof.Machine

/-- The 2-bit value of `PHASE` (R26). -/
def Phase.bits : Phase → BitVec 2
  | .idle => 0
  | .active => 1
  | .finalized => 2

/-- The 2-bit value of a result code (R28). -/
def Code.bits : Code → BitVec 2
  | .ok => 0
  | .errInvalidState => 1
  | .errIllegalCommand => 2

/-- The 8 bits of `STATUS`: `ERR` in bit 7, bits 6:4 reserved and 0, `CODE` in bits 3:2, `PHASE` in bits 1:0 (R27). -/
def statusByte (phase : Phase) (code : Code) (err : Bool) : BitVec 8 :=
  BitVec.ofBool err ++ 0#3 ++ code.bits ++ phase.bits

/-- The `STATUS` register as the host reads it; reading it changes nothing (R27, R60). -/
def State.status (s : State) : BitVec 8 := statusByte s.phase s.code s.err

/-- A response as bytes: the code byte, then the 64 digest bytes when there are any (R73). -/
def Response.bytes (r : Response) : List Byte :=
  r.code.bits.setWidth 8 :: (r.digest.map Vector.toList).getD []

end Sys2Proof.Machine
end

