-- ==== Sys2Proof/Machine/Compression.lean ====
section
/-! DEFINITION. COMPRESS as a function (41_compression.md): the round transform, the key schedule in lock-step with
the rounds, the feed-forward. -/

namespace Sys2Proof.Machine

/-- `byte_t(w) = w[63-8t : 56-8t]`: byte `t` of a word, `byte_0` the most significant (R122). -/
def byteSel (t : Nat) (w : Word) : Byte := w.extractLsb' (56 - 8 * t) 8

/-- Word `i` of the block, `m[i] = BE64(BLOCK[8i .. 8i+7])` (R53, R121). -/
def blockWord (blk : Block) (i : Fin 8) : Word :=
  blk[8 * i.val] ++ blk[8 * i.val + 1] ++ blk[8 * i.val + 2] ++ blk[8 * i.val + 3] ++
  blk[8 * i.val + 4] ++ blk[8 * i.val + 5] ++ blk[8 * i.val + 6] ++ blk[8 * i.val + 7]

/-- The block as eight words (R121). -/
def blockWords (blk : Block) : Words := Vector.ofFn (blockWord blk)

/-- Word-wise XOR of two 512-bit values. -/
def xorWords (a b : Words) : Words := Vector.ofFn fun i => a.get i ^^^ b.get i

/-- Output word `i` of the round transform: table `t` looks up byte `t` of input word `(i - t) mod 8` (R123). -/
def rhoWord (A k : Words) (i : Fin 8) : Word :=
  cTable 0 (byteSel 0 (A.get i)) ^^^
  cTable 1 (byteSel 1 (A.get (i - 1))) ^^^
  cTable 2 (byteSel 2 (A.get (i - 2))) ^^^
  cTable 3 (byteSel 3 (A.get (i - 3))) ^^^
  cTable 4 (byteSel 4 (A.get (i - 4))) ^^^
  cTable 5 (byteSel 5 (A.get (i - 5))) ^^^
  cTable 6 (byteSel 6 (A.get (i - 6))) ^^^
  cTable 7 (byteSel 7 (A.get (i - 7))) ^^^
  k.get i

/-- The round transform `rho(A, k)`; every output word is computed from the input (R123). -/
def rho (A k : Words) : Words := Vector.ofFn (rhoWord A k)

/-- The round constant as a round key: it goes to output word 0 only (R124). -/
def constantKey (c : Word) : Words := #v[c, 0, 0, 0, 0, 0, 0, 0]

/-- The rounds over the round constants still to come, the key first in each round (R124 to R126). -/
def rounds : List Word → Words → Words → Words
  | [], _, S => S
  | c :: cs, K, S => rounds cs (rho K (constantKey c)) (rho S (rho K (constantKey c)))

/-- COMPRESS as a function of the accumulator and the block (R128): ten rounds from `K^0 = ACC` and
`S^0 = m ^ K^0`, then the feed-forward `ACC ^ S^10 ^ m` (R127). -/
def compress (acc : Words) (blk : Block) : Words :=
  let m := blockWords blk
  let S := rounds roundConstants.toList acc (xorWords m acc)
  xorWords (xorWords acc S) m

/-! ### The same function read another way (used by claims and tests; no meaning calls these) -/

/-- The round key `K^r` by the recursion of R124. -/
def roundKey (acc : Words) : Nat → Words
  | 0 => acc
  | r + 1 => rho (roundKey acc r) (constantKey (roundConstants.toList.getD r 0))

/-- The cipher state `S^r` by the recursion of R125. -/
def cipherState (acc : Words) (blk : Block) : Nat → Words
  | 0 => xorWords (blockWords blk) acc
  | r + 1 => rho (cipherState acc blk r) (roundKey acc (r + 1))

/-- A 512-bit value as an 8 x 8 byte matrix: row `i` is word `i`, column `j` its byte `j` (R130). -/
def matrixByte (A : Words) (i j : Fin 8) : Byte := byteSel j.val (A.get i)

/-- A word from its eight bytes, byte 0 the most significant. -/
def wordOfBytes (b : Fin 8 → Byte) : Word := b 0 ++ b 1 ++ b 2 ++ b 3 ++ b 4 ++ b 5 ++ b 6 ++ b 7

/-- `gamma` then `pi`: the S-box on every byte, then column `j` moved down by `j` rows (R130). -/
def substituted (A : Words) (i j : Fin 8) : Byte := sbox (matrixByte A (i - j) j)

/-- `theta`: each row times the circulant matrix over GF(2^8) (R130). -/
def diffused (a : Fin 8 → Byte) (j : Fin 8) : Byte :=
  gmul (a 0) (cirEntry 0 j) ^^^ gmul (a 1) (cirEntry 1 j) ^^^ gmul (a 2) (cirEntry 2 j) ^^^ gmul (a 3) (cirEntry 3 j) ^^^
  gmul (a 4) (cirEntry 4 j) ^^^ gmul (a 5) (cirEntry 5 j) ^^^ gmul (a 6) (cirEntry 6 j) ^^^ gmul (a 7) (cirEntry 7 j)

/-- The algebraic reading of the round transform, `sigma[k](theta(pi(gamma(A))))` (R130). -/
def rhoAlgebraic (A k : Words) : Words :=
  Vector.ofFn fun i => wordOfBytes (diffused (substituted A i)) ^^^ k.get i

end Sys2Proof.Machine
end

