-- ==== Sys2Proof/Machine/Operands.lean ====
section
/-! DEFINITION. Operand forms and byte orders: the data-in channel and the chunks of an `ABSORB`, the length field,
the digest bytes, the bytes of a response, the bytes of the block. -/

namespace Sys2Proof.Machine

/-! ### The data operand of `ABSORB` -/

/-- `DataIn(k)`: byte `k` of the data operand (R11, R51). No rule reads past the data of a well-formed frame. -/
def dataIn (data : List Byte) (k : Nat) : Byte := data.getD k 0

/-- The alignment gap `g`: the unused high bits of `DataIn(0)` under `RIGHT` (R147). -/
def alignGap (n : BitCount) : Nat := (8 - n.toNat % 8) % 8

/-- Chunk `k` under `LEFT`: `DataIn(k)` with the bits past `n` cleared (R146). -/
def chunkLeft (n : BitCount) (data : List Byte) (k : Nat) : Byte :=
  if n.toNat - 8 * k < 8 then dataIn data k &&& (0xff#8 <<< (8 - (n.toNat - 8 * k))) else dataIn data k

/-- Chunk `k` under `RIGHT`: the data shifted up by the alignment gap (R147). -/
def chunkRight (n : BitCount) (data : List Byte) (k : Nat) : Byte :=
  if alignGap n > 0 ∧ k + 1 < dataLength n
  then (dataIn data k <<< alignGap n) ||| (dataIn data (k + 1) >>> (8 - alignGap n))
  else dataIn data k <<< alignGap n

/-- Chunk `k` of an `ABSORB` of `n` bits (R146, R147). -/
def chunk (align : PartialAlign) (n : BitCount) (data : List Byte) (k : Nat) : Byte :=
  match align with
  | .left => chunkLeft n data k
  | .right => chunkRight n data k

/-! ### Bytes of the block -/

/-- `BLOCK[j] <- b`. There are 64 bytes; an index past them names no byte and nothing is written. -/
def setByte (blk : Block) (j : Nat) (b : Byte) : Block := if h : j < 64 then blk.set j b h else blk

/-- `BLOCK[j] <- BLOCK[j] | b`, with the same bound. -/
def orByte (blk : Block) (j : Nat) (b : Byte) : Block := if h : j < 64 then blk.set j (blk[j] ||| b) h else blk

/-- `for j in lo..hi-1: BLOCK[j] <- 0` (R173, R174), empty when `hi ≤ lo`. -/
def zeroFill (blk : Block) (lo hi : Nat) : Block :=
  Vector.ofFn fun j => if lo ≤ j.val ∧ j.val < hi then 0 else blk.get j

/-- Byte `j` of `TOTALBITS`, byte 0 the most significant (R25, R55). -/
def lengthByte (T : BitVec 256) (j : Nat) : Byte := T.extractLsb' (248 - 8 * j) 8

/-- `for j in 0..31: BLOCK[32 + j] <- TOTALBITS[255-8j : 248-8j]` (R55, R175). -/
def writeLength (blk : Block) (T : BitVec 256) : Block :=
  Vector.ofFn fun j => if 32 ≤ j.val then lengthByte T (j.val - 32) else blk.get j

/-! ### What goes back to the host -/

/-- Digest byte `8i + j` is `ACC[i][63-8j : 56-8j]` (R54, R177). -/
def digestBytes (acc : Words) : Digest :=
  Vector.ofFn fun k => byteSel (k.val % 8) (acc.get ⟨k.val / 8, by omega⟩)

end Sys2Proof.Machine
end

