-- ==== Sys2Proof/Machine/Ops.lean ====
section
/-! DEFINITION. The shared operations: ending a command, taking an error, running COMPRESS, reset. The engine has no
trap entry and no return from one (R207, R208): taking an error is `raiseError`, and the next command is accepted at
once. -/

namespace Sys2Proof.Machine

/-- `Respond(OK, digest)`: the code goes to `STATUS.CODE` and into the response; `STATUS.ERR` is not written
(R28, R73). -/
def respondOk (digest : Option Digest) (s : State) : State :=
  { s with code := .ok, responses := s.responses ++ [{ code := .ok, digest := digest }] }

/-- `raise InvalidState()` and `raise IllegalCommand()`: `STATUS.CODE <- code`, `STATUS.ERR <- 1`,
`Respond(code, -)`, and no other register changes (R204). -/
def raiseError (code : Code) (s : State) : State :=
  { s with code := code, err := true, responses := s.responses ++ [{ code := code, digest := none }] }

/-- COMPRESS on the registers: it reads `ACC` and `BLOCK` and writes `ACC` (R120, R128). -/
def runCompress (s : State) : State :=
  { s with acc := compress s.acc s.block, compressions := s.compressions + 1 }

/-- A zeroed HashState: `ACC`, `BLOCK`, `FILLBITS`, `BYTEPOS`, `TOTALBITS` all 0 (R38, R140). -/
def zeroHashState (s : State) : State :=
  { s with acc := Vector.replicate 8 0, block := Vector.replicate 64 0, fillBits := 0, bytePos := 0, totalBits := 0 }

/-- `BLOCK`, `FILLBITS`, `BYTEPOS` and `TOTALBITS` become unspecified: free values, drawn afresh (R37, R178). -/
def unspecifyBuffer (s : State) : State :=
  { s with
    block := Config.freeBlock s.freeCount
    fillBits := Config.freeFillBits s.freeCount
    bytePos := Config.freeBytePos s.freeCount
    totalBits := Config.freeTotalBits s.freeCount
    freeCount := s.freeCount + 1 }

/-- Reset: every register takes its value of R38 (R230). The parameter, the host's channels and the
model's own fields are not registers of the engine and stay. -/
def applyReset (s : State) : State :=
  { zeroHashState s with phase := .idle, code := .ok, err := false }

end Sys2Proof.Machine
end

