-- ==== Sys2Proof/Machine/Accumulator.lean ====
section
/-! DEFINITION. The Bit Accumulator (42_accumulator.md): the meanings of `INIT` and `ABSORB`. -/

namespace Sys2Proof.Machine

/-! ### INIT -/

/-- `INIT`: a zeroed HashState in phase `ACTIVE`, from any phase (R140). -/
def execInit (s : State) : Host.Outcome State Fault Refusal :=
  .next (respondOk none { zeroHashState s with phase := .active })

/-! ### ABSORB -/

/-- `TOTALBITS <- (TOTALBITS + n) mod 2^256`, `n` zero-extended (R143, R145). -/
def tally (T : BitVec 256) (n : BitCount) : BitVec 256 := T + n.setWidth 256

/-- `if FILLBITS = 512: COMPRESS; FILLBITS <- 0; BYTEPOS <- 0` (R150). -/
def compressIfFull (s : State) : State :=
  if s.fillBits = 512 then { runCompress s with fillBits := 0, bytePos := 0 } else s

/-- `BLOCK[BYTEPOS] <- BLOCK[BYTEPOS] | (b >> rem)`: the first `8 - rem` bits of a chunk join the current byte
(R141, R148). -/
def mergeHead (rem : Nat) (b : Byte) (s : State) : State :=
  { s with block := orByte s.block s.bytePos.toNat (b >>> rem) }

/-- The current byte is finished: `BYTEPOS` and `FILLBITS` move past it, and a full block is compressed
(R141, R150). -/
def finishByte (rem : Nat) (s : State) : State :=
  compressIfFull { s with bytePos := s.bytePos + 1, fillBits := s.fillBits + BitVec.ofNat 10 (8 - rem) }

/-- `BLOCK[BYTEPOS] <- (b << (8 - rem))[7:0]`, and `FILLBITS` grows by the `added` bits of them that count
(R141, R148, R149). -/
def startByte (rem added : Nat) (b : Byte) (s : State) : State :=
  { s with
    block := setByte s.block s.bytePos.toNat (b <<< (8 - rem))
    fillBits := s.fillBits + BitVec.ofNat 10 added }

/-- One iteration of the `while left > 8` loop: a whole chunk `b` (R148). -/
def wholeChunk (rem : Nat) (b : Byte) (s : State) : State :=
  startByte rem rem b (finishByte rem (mergeHead rem b s))

/-- The first `m` iterations of the loop, over the chunks `chunkAt 0`, `chunkAt 1`, ... (R148). -/
def wholeChunks (rem : Nat) (chunkAt : Nat → Byte) : Nat → State → State
  | 0, s => s
  | m + 1, s => wholeChunk rem (chunkAt m) (wholeChunks rem chunkAt m s)

/-- The residual bits, `left ≤ 8` of them, in the chunk `b` (R149). -/
def residualBits (rem left : Nat) (b : Byte) (s : State) : State :=
  if left = 0 then s
  else if rem + left < 8 then
    { mergeHead rem b s with fillBits := s.fillBits + BitVec.ofNat 10 left }
  else
    startByte rem (left - (8 - rem)) b (finishByte rem (mergeHead rem b s))

/-- How often the loop `while left > 8: ...; left <- left - 8` runs from `left = n` (R141). -/
def wholeCount (n : BitCount) : Nat := (n.toNat - 1) / 8

/-- What `ABSORB` does to the HashState: the tally, the whole chunks, the residual bits (R141), with `rem` fixed for
the command. -/
def absorbBits (align : PartialAlign) (n : BitCount) (data : List Byte) (s : State) : State :=
  let rem := (s.fillBits &&& 7).toNat
  residualBits rem (n.toNat - 8 * wholeCount n) (chunk align n data (wholeCount n))
    (wholeChunks rem (chunk align n data) (wholeCount n) { s with totalBits := tally s.totalBits n })

/-- A well-formed `ABSORB`: the phase check, then the bits, then `Respond(OK, -)` (R141, R142). -/
def absorbCommand (align : PartialAlign) (n : BitCount) (data : List Byte) (s : State) : State :=
  match s.phase with
  | .active => respondOk none (absorbBits align n data s)
  | .idle => raiseError .errInvalidState s
  | .finalized => raiseError .errInvalidState s

/-- `ABSORB n, DATA` (R141), under the alignment of this engine (R7). A term whose data are not `ceil(n/8)` bytes is no command (R78). -/
def execAbsorb (n : BitCount) (data : List Byte) (s : State) : Host.Outcome State Fault Refusal :=
  if data.length < dataLength n then .refused (.malformedFrame .cutShort)
  else if dataLength n < data.length then .refused (.malformedFrame .excessBytes)
  else .next (absorbCommand s.partialAlign n data s)

/-! ### The length tally byte by byte (used by claims; no meaning calls it) -/

/-- The loop of R144 over the bytes `j`, `j - 1`, ..., 0 of `TOTALBITS`, given as `count = j + 1`: it stops early when
`carry` and `value` are both 0, and drops a carry out of byte 0. -/
def tallyLoop : Nat → Nat → Nat → Vector Byte 32 → Vector Byte 32
  | 0, _, _, TB => TB
  | j + 1, carry, value, TB =>
    if carry ≠ 0 ∨ value ≠ 0 then
      let sum := carry + (TB.toList.getD j 0).toNat + value % 256
      tallyLoop j (sum / 256) (value / 256) (TB.setIfInBounds j (BitVec.ofNat 8 sum))
    else TB

/-- `TOTALBITS` as 32 bytes, byte 0 the most significant (R25). -/
def totalBytes (T : BitVec 256) : Vector Byte 32 := Vector.ofFn fun j => lengthByte T j.val

/-- The byte-wise tally of R144. -/
def tallyBytewise (TB : Vector Byte 32) (n : BitCount) : Vector Byte 32 := tallyLoop 32 0 n.toNat TB

end Sys2Proof.Machine
end

