-- ==== Sys2Proof/Machine/Finalizer.lean ====
section
/-! DEFINITION. The Finalizer (43_finalizer.md): the meaning of `FINALIZE`. -/

namespace Sys2Proof.Machine

/-- Step 1: the single `1` bit after the last absorbed bit, then `BYTEPOS` advances (R172). -/
def appendOneBit (s : State) : State :=
  { s with
    block := orByte s.block s.bytePos.toNat (0x80#8 >>> (s.fillBits &&& 7).toNat)
    bytePos := s.bytePos + 1 }

/-- Step 2: when fewer than 32 bytes of room are left, the block is zero-filled, compressed and started anew
(R173). -/
def makeRoom (s : State) : State :=
  if 32 < s.bytePos.toNat then
    { runCompress { s with block := zeroFill s.block s.bytePos.toNat 64 } with bytePos := 0 }
  else s

/-- Steps 3 to 5: zero up to byte 31, the length into bytes 32 to 63, the last COMPRESS (R174 to R176). -/
def compressLength (s : State) : State :=
  runCompress { s with block := writeLength (zeroFill s.block s.bytePos.toNat 32) s.totalBits }

/-- Steps 1 to 5 on the HashState (R170). -/
def padAndCompress (s : State) : State := compressLength (makeRoom (appendOneBit s))

/-- A `FINALIZE`: the phase check, the padding, the digest (step 6, R177), the end state (R178). -/
def finalizeCommand (s : State) : State :=
  match s.phase with
  | .active =>
    respondOk (some (digestBytes (padAndCompress s).acc))
      { unspecifyBuffer (padAndCompress s) with phase := .finalized }
  | .idle => raiseError .errInvalidState s
  | .finalized => raiseError .errInvalidState s

/-- `FINALIZE` (R170). -/
def execFinalize (s : State) : Host.Outcome State Fault Refusal := .next (finalizeCommand s)

end Sys2Proof.Machine
end

