-- ==== Sys2Proof/Machine/Internal.lean ====
section
/-! DEFINITION. The meanings of the two rows of the opcode table that are no command of the host: the internal
operation COMPRESS and the class of illegal command words. -/

namespace Sys2Proof.Machine

/-- COMPRESS (R128). It has no frame, ends no command and writes no `STATUS`. -/
def execCompress (s : State) : Host.Outcome State Fault Refusal := .next (runCompress s)

/-- An illegal command word: `raise IllegalCommand()`, in every phase (R75, R203, R205). The word itself is recorded
nowhere (R200). -/
def execIllegal (_cmd : CmdWord) (s : State) : Host.Outcome State Fault Refusal :=
  .next (raiseError .errIllegalCommand s)

end Sys2Proof.Machine
end

