-- ==== Sys2Proof/Machine/Fetch.lean ====
section
/-! DEFINITION. What the engine takes next from the host. There is no program counter and no instruction fetch
(R31, R66): the engine takes the frames in the order the host issues them (R62). -/

namespace Sys2Proof.Machine

/-- What the engine finds at its inputs. -/
inductive Fetched where
  /-- Nothing: it waits for a command (R231). -/
  | idle
  /-- A reset; `s` is the state with it taken (R230). -/
  | reset (s : State)
  /-- A well-formed frame; `s` is the state with it taken. -/
  | command (i : Instr) (s : State)
  /-- A frame that is not well formed (R78). -/
  | malformed (why : FrameError)
deriving DecidableEq, Repr

/-- The oldest input, with the frame decoded. -/
def fetch (s : State) : Fetched :=
  match s.inputs with
  | [] => .idle
  | .reset :: rest => .reset { s with inputs := rest }
  | .frame bytes :: rest =>
    match decodeFrame bytes with
    | .ok i => .command i { s with inputs := rest }
    | .error why => .malformed why

/-- The state with one more frame before all others, so that the next step performs it. -/
def sendFirst (bytes : List Byte) (s : State) : State := { s with inputs := .frame bytes :: s.inputs }

end Sys2Proof.Machine
end

