-- ==== Sys2Proof/Machine/Step.lean ====
section
/-! DEFINITION. One step: one command, performed completely (R5, R59, R62), or a reset, or waiting. -/

namespace Sys2Proof.Machine

/-- One step of the engine. Registers keep their values while it waits (R215, R231). -/
def step (s : State) : Host.Outcome State Fault Refusal :=
  match fetch s with
  | .idle => .next s
  | .reset s' => .next (applyReset s')
  | .command i s' => exec i s'
  | .malformed why => .refused (.malformedFrame why)

/-- The state whose next step performs the instruction of a word numbered as the opcode table numbers it: the host
has sent its frame, and the engine takes it before any other input. -/
def State.withFetchWord (s : State) (nbits w : Nat) : State := sendFirst (tableFrame nbits w) s

end Sys2Proof.Machine
end

