-- ==== Sys2Proof/Machine/Assembler.lean ====
section
/-! DEFINITION. The assembler of 30_encoding.md section 3: the syntax of R79 and the pseudo-instructions of R81 to
R84, from text to instructions and to the byte stream of R71. It adds no behaviour to the engine. -/

namespace Sys2Proof.Assembler

/-! ### Pseudo-instructions -/

/-- `ABSORBS "<text>"`: `ABSORB 8*len, <bytes>` (R81). -/
def absorbs (text : List Byte) : Instr := .absorb (BitVec.ofNat 64 (8 * text.length)) text

/-- `REPEAT <k> { <commands> }`: `<k>` copies in sequence (R82). -/
def repeatCommands (k : Nat) (commands : List Instr) : List Instr := (List.replicate k commands).flatten

/-- `DIGEST "<message>"` (R83). -/
def digest (message : List Byte) : List Instr := [.init, absorbs message, .finalize]

/-- `DIGEST "<message>", "<salt>"`: the salt bytes come first (R84). -/
def digestSalted (message salt : List Byte) : List Instr := [.init, absorbs (salt ++ message), .finalize]

/-! ### Text to tokens -/

/-- What a line is made of (R79, R82). -/
inductive Token where
  | word (chars : List Char)
  | quoted (chars : List Char)
  | comma
  | newline
  | openBlock
  | closeBlock
deriving DecidableEq, Repr

/-- Where the lexer stands: in a word, inside quotes, in a comment. -/
inductive LexMode where
  | plain (rev : List Char)
  | quotes (rev : List Char)
  | comment
deriving DecidableEq, Repr

/-- The word read so far, if any, before the tokens that follow. -/
def endWord (rev : List Char) (ts : List Token) : List Token := if rev = [] then ts else .word rev.reverse :: ts

/-- The tokens of a text. A `;` starts a comment that runs to the end of the line (R79).
DESIGN CHOICE (notes/assumptions/20.md): inside quotes a `;`, a comma, a brace and white space are characters of the text
and nothing else; there is no escape, so a text cannot hold a double quote; a quotation left open at the end of its line
is refused. -/
def lexAux : LexMode → List Char → Option (List Token)
  | .plain rev, [] => some (endWord rev [])
  | .quotes _, [] => none
  | .comment, [] => some []
  | .comment, c :: cs => if c = '\n' then (lexAux (.plain []) cs).map (.newline :: ·) else lexAux .comment cs
  | .quotes rev, c :: cs =>
    if c = '\n' then none
    else if c = Char.ofNat 0x22 then (lexAux (.plain []) cs).map (.quoted rev.reverse :: ·)
    else lexAux (.quotes (c :: rev)) cs
  | .plain rev, c :: cs =>
    if c = ' ' ∨ c = '\t' ∨ c = '\r' then (lexAux (.plain []) cs).map (endWord rev)
    else if c = '\n' then (lexAux (.plain []) cs).map fun ts => endWord rev (.newline :: ts)
    else if c = ',' then (lexAux (.plain []) cs).map fun ts => endWord rev (.comma :: ts)
    else if c = ';' then (lexAux .comment cs).map (endWord rev)
    else if c = Char.ofNat 0x22 then (lexAux (.quotes []) cs).map (endWord rev)
    else if c = Char.ofNat 0x7b then (lexAux (.plain []) cs).map fun ts => endWord rev (.openBlock :: ts)
    else if c = Char.ofNat 0x7d then (lexAux (.plain []) cs).map fun ts => endWord rev (.closeBlock :: ts)
    else lexAux (.plain (c :: rev)) cs

/-! ### Numbers, bytes, text -/

/-- The value of a digit in a base, if the character is one. -/
def digitValue (base : Nat) (c : Char) : Option Nat :=
  let n := c.toNat
  let v := if 0x30 ≤ n ∧ n ≤ 0x39 then n - 0x30
    else if 0x61 ≤ n ∧ n ≤ 0x66 then n - 0x61 + 10
    else if 0x41 ≤ n ∧ n ≤ 0x46 then n - 0x41 + 10
    else base
  if v < base then some v else none

/-- The value of digits in a base, `acc` being the value of those before them. -/
def digitsValue (base : Nat) : Nat → List Char → Option Nat
  | acc, [] => some acc
  | acc, c :: cs => (digitValue base c).bind fun d => digitsValue base (base * acc + d) cs

/-- A number, decimal or `0x` hexadecimal (R79). -/
def parseNumber : List Char → Option Nat
  | [] => none
  | '0' :: 'x' :: cs => if cs = [] then none else digitsValue 16 0 cs
  | c :: cs => digitsValue 10 0 (c :: cs)

/-- Pairs of hexadecimal digits as bytes. -/
def parseHexPairs : List Char → Option (List Byte)
  | [] => some []
  | [_] => none
  | c :: d :: cs =>
    (digitsValue 16 0 [c, d]).bind fun v => (parseHexPairs cs).map (BitVec.ofNat 8 v :: ·)

/-- The `<bytes>` of an `ABSORB`: `0x` and pairs of digits, or empty quotes (R79). -/
def parseBytes : Token → Option (List Byte)
  | .word ('0' :: 'x' :: cs) => parseHexPairs cs
  | .quoted [] => some []
  | _ => none

/-- A quoted text as bytes: each character one byte of its ASCII code (R81). -/
def asciiBytes (chars : List Char) : Option (List Byte) :=
  if chars.all (fun c => c.toNat < 128) then some (chars.map fun c => BitVec.ofNat 8 c.toNat) else none

/-! ### Tokens to instructions -/

/-- `ABSORB <n>, <bytes>`, refused unless there are `ceil(n/8)` bytes (R79) and `n` fits in 64 bits (R72). -/
def absorbInstr (n : Nat) (bytes : List Byte) : Option Instr :=
  if n < 2 ^ 64 ∧ bytes.length = (n + 7) / 8 then some (.absorb (BitVec.ofNat 64 n) bytes) else none

/-- `ABSORBS` of a quoted text, refused as `ABSORB` is. -/
def absorbsInstr (text : List Byte) : Option Instr := absorbInstr (8 * text.length) text

/-- One command or pseudo-instruction other than `REPEAT`, by its mnemonic, and the tokens after it. -/
def parseLine (mnemonic : List Char) (ts : List Token) : Option (List Instr × List Token) :=
  if mnemonic = "INIT".toList then some ([.init], ts)
  else if mnemonic = "FINALIZE".toList then some ([.finalize], ts)
  else if mnemonic = "ABSORB".toList then
    match ts with
    | .word n :: .comma :: b :: rest =>
      (parseNumber n).bind fun n => (parseBytes b).bind fun bs => (absorbInstr n bs).map fun i => ([i], rest)
    | _ => none
  else if mnemonic = "ABSORBS".toList then
    match ts with
    | .quoted text :: rest => (asciiBytes text).bind fun bs => (absorbsInstr bs).map fun i => ([i], rest)
    | _ => none
  else if mnemonic = "DIGEST".toList then
    match ts with
    | .quoted text :: .comma :: .quoted salt :: rest =>
      (asciiBytes text).bind fun m => (asciiBytes salt).bind fun t =>
        (absorbsInstr (t ++ m)).map fun i => ([.init, i, .finalize], rest)
    | .quoted text :: rest =>
      (asciiBytes text).bind fun m => (absorbsInstr m).map fun i => ([.init, i, .finalize], rest)
    | _ => none
  else none

/-- Whether a command may end here: at a line's end, at the end of a block, at the end of the text. -/
def atLineEnd : List Token → Bool
  | [] | .newline :: _ | .closeBlock :: _ => true
  | _ => false

/-- The commands up to the end of the text or the end of the block they stand in, and the tokens from there on.
Every call takes at least one token, so their number is fuel enough. -/
def parseCommands : Nat → List Token → Option (List Instr × List Token)
  | 0, _ => none
  | _ + 1, [] => some ([], [])
  | _ + 1, .closeBlock :: ts => some ([], .closeBlock :: ts)
  | fuel + 1, .newline :: ts => parseCommands fuel ts
  | fuel + 1, .word w :: ts =>
    if w = "REPEAT".toList then
      match ts with
      | .word k :: .openBlock :: body =>
        (parseNumber k).bind fun k =>
          match parseCommands fuel body with
          | some (is, .closeBlock :: rest) =>
            if atLineEnd rest then
              (parseCommands fuel rest).map fun r => (repeatCommands k is ++ r.1, r.2)
            else none
          | _ => none
      | _ => none
    else
      match parseLine w ts with
      | some (is, rest) =>
        if atLineEnd rest then (parseCommands fuel rest).map fun r => (is ++ r.1, r.2) else none
      | none => none
  | _ + 1, .quoted _ :: _ => none
  | _ + 1, .comma :: _ => none
  | _ + 1, .openBlock :: _ => none

/-- The instructions of a text, or none where the assembler refuses it (R79). -/
def assemble (text : List Char) : Option (List Instr) :=
  (lexAux (.plain []) text).bind fun ts =>
    match parseCommands (ts.length + 1) ts with
    | some (is, []) => some is
    | _ => none

/-- The byte stream the host sends for instructions: their frames, one after another (R71, R80). -/
def byteStream (program : List Instr) : List Byte := (program.filterMap encode).flatten

end Sys2Proof.Assembler
end

