-- ==== Sys2Proof/Machine/Message.lean ====
section
/-! DEFINITION. The bit-string reading of the engine, in which its laws are stated: the bits a command takes (R146,
R147), the blocks and the running hash of a message (R151), the padded message and its digest (R180). No meaning
calls anything of this file; claims relate the machine to it. -/

namespace Sys2Proof.Machine

/-- Bit `j` of the bit string of an `ABSORB` of `n` bits (R146 for `LEFT`, R147 for `RIGHT`). -/
def commandBit (align : PartialAlign) (n : BitCount) (data : List Byte) (j : Nat) : Bool :=
  match align with
  | .left => (dataIn data (j / 8)).getLsbD (7 - j % 8)
  | .right => (dataIn data ((j + alignGap n) / 8)).getLsbD (7 - (j + alignGap n) % 8)

/-- The bit string of an `ABSORB` of `n` bits, first bit first. -/
def commandBits (align : PartialAlign) (n : BitCount) (data : List Byte) : List Bool :=
  (List.range n.toNat).map (commandBit align n data)

/-- Bit `i` of the block, `BLOCK[i >> 3][7 - (i & 7)]` (R56, R151). -/
def blockBit (blk : Block) (i : Nat) : Bool := (blk.toList.getD (i / 8) 0).getLsbD (7 - i % 8)

/-- The byte of eight bits, first bit most significant (R9). -/
def byteOfBits (bit : Nat → Bool) : Byte :=
  BitVec.ofBool (bit 0) ++ BitVec.ofBool (bit 1) ++ BitVec.ofBool (bit 2) ++ BitVec.ofBool (bit 3) ++
  BitVec.ofBool (bit 4) ++ BitVec.ofBool (bit 5) ++ BitVec.ofBool (bit 6) ++ BitVec.ofBool (bit 7)

/-- `M_q`: the byte image of bits `512q` to `512q + 511` of a message (R151). -/
def messageBlock (M : List Bool) (q : Nat) : Block :=
  Vector.ofFn fun j => byteOfBits fun k => M.getD (512 * q + 8 * j.val + k) false

/-- The accumulator after the first `p` blocks of a message, from `ACC = 0` (R151). -/
def hashBlocks (M : List Bool) : Nat → Words
  | 0 => Vector.replicate 8 0
  | p + 1 => compress (hashBlocks M p) (messageBlock M p)

/-- The number `z` of zero bits of the padding: the least `z` with `(N + 1 + z) mod 512 = 256` (R180). -/
def padZeros (N : Nat) : Nat := (767 - N % 512) % 512

/-- The 256 bits of `N mod 2^256`, most significant first (R180). -/
def lengthBits (N : Nat) : List Bool := (List.range 256).map fun i => N.testBit (255 - i)

/-- The padded string `M ++ [1] ++ 0^z ++ length` (R180). -/
def padded (M : List Bool) : List Bool :=
  M ++ true :: (List.replicate (padZeros M.length) false ++ lengthBits M.length)

/-- The digest of a message: the byte image of the accumulator after the blocks of the padded string (R180). -/
def messageDigest (M : List Bool) : Digest := digestBytes (hashBlocks (padded M) ((padded M).length / 512))

/-- The bits of a byte string, first bit of each byte most significant (R9). -/
def bitsOfBytes (bytes : List Byte) : List Bool :=
  bytes.flatMap fun b => (List.range 8).map fun k => b.getLsbD (7 - k)

end Sys2Proof.Machine
end

