-- ==== Sys2Proof/Machine/Run.lean ====
section
/-! DEFINITION. Runs: a launch state and a finite sequence of frames the host sends one at a time (R236, R242). -/

namespace Sys2Proof.Machine

/-- A run over frames (R242). The host sends the next frame when the engine has performed the one before it. A frame
the model refuses sets the refusal mark, which no step clears, and has no other effect (R243). -/
def runFrames : List (List Byte) → State → State
  | [], s => s
  | bytes :: frames, s =>
    match step (sendFirst bytes s) with
    | .next s' => runFrames frames s'
    | .fault r => nomatch r
    | .refused _ => runFrames frames { s with refusalMark := true }

/-- The frames of a program, in order; COMPRESS has none (R85). -/
def programFrames (program : List Instr) : List (List Byte) := program.filterMap encode

/-- A run of a program of commands. -/
def runProgram (program : List Instr) (s : State) : State := runFrames (programFrames program) s

/-! ### What the host observes of a run -/

/-- The observation of a run: its responses and the final `STATUS` (R39, R242). -/
structure Observation where
  responses : List Response
  status    : BitVec 8
deriving DecidableEq, Repr

/-- The observation of the run over `frames` from `launch` (R242): the responses of this run alone, not those returned
before the launch. -/
def observe (launch : State) (frames : List (List Byte)) : Observation :=
  { responses := (runFrames frames launch).responses.drop launch.responses.length
    status := (runFrames frames launch).status }

/-- The commands of a digest run: `INIT`, an `ABSORB` for each piece, `FINALIZE` (R233). -/
def digestProgram (pieces : List (BitCount × List Byte)) : List Instr :=
  .init :: pieces.map (fun p => .absorb p.1 p.2) ++ [.finalize]

/-- The observed value of a digest run: the digest in the last response, the one to `FINALIZE`, and only when its code
is `OK` (R242). -/
def Observation.digestValue (o : Observation) : Option Digest :=
  match o.responses.getLast? with
  | none => none
  | some r =>
    match r.code with
    | .ok => r.digest
    | .errInvalidState => none
    | .errIllegalCommand => none

end Sys2Proof.Machine
end

