-- ==== Sys2Proof/Safety.lean ====
section
/-! DEFINITION. What claims are stated with: the launch premises (70_reset_and_hazards.md rule R243), the invariants
of 10_state.md rule R36, the message a state holds (42_accumulator.md rule R151), which of its registers a rule may still read (R37, R155). -/

namespace Sys2Proof.Machine

/-! ### Invariants -/

/-- R36 (c): the bits of the current byte after the last valid bit are zero. -/
def CleanTail (s : State) : Prop :=
  ∀ h : s.bytePos.toNat < 64, s.block[s.bytePos.toNat] &&& (0xff#8 >>> (s.fillBits &&& 7).toNat) = 0

/-- R36 (a) to (d), which hold between commands while `PHASE = ACTIVE`. -/
structure BufferInv (s : State) : Prop where
  fill_lt    : s.fillBits.toNat < 512
  byte_pos   : s.bytePos.toNat = s.fillBits.toNat / 8
  clean_tail : CleanTail s
  fill_total : s.fillBits.toNat = s.totalBits.toNat % 512

/-- The invariant of the machine: R36 whenever `PHASE = ACTIVE`. -/
def Inv (s : State) : Prop := s.phase = .active → BufferInv s

/-! ### Launch premises (R243) -/

/-- Every register has its value after reset (R38). -/
structure AfterReset (s : State) : Prop where
  acc       : s.acc = Vector.replicate 8 0
  block     : s.block = Vector.replicate 64 0
  fillBits  : s.fillBits = 0
  bytePos   : s.bytePos = 0
  totalBits : s.totalBits = 0
  phase     : s.phase = .idle
  status    : s.status = 0x00

/-- No fault recorded: `STATUS.ERR = 0` (R29, R243). -/
def NoFault (s : State) : Prop := s.err = false

/-- The refusal mark is clear (R243). -/
def NoRefusal (s : State) : Prop := s.refusalMark = false

/-- A HashState just created (R140, R243). -/
structure Fresh (s : State) : Prop where
  phase     : s.phase = .active
  acc       : s.acc = Vector.replicate 8 0
  block     : s.block = Vector.replicate 64 0
  fillBits  : s.fillBits = 0
  bytePos   : s.bytePos = 0
  totalBits : s.totalBits = 0

/-- A HashState with `f` bits in the block and `T` in all (R36, R243). -/
structure Active (s : State) (f : Nat) (T : BitVec 256) : Prop where
  phase      : s.phase = .active
  fill       : s.fillBits.toNat = f
  fill_lt    : f < 512
  byte_pos   : s.bytePos.toNat = f / 8
  total      : s.totalBits = T
  clean_tail : CleanTail s
  fill_total : f = T.toNat % 512

/-! ### The message a HashState holds -/

/-- The HashState of `s` is what absorbing the bit string `M` since `INIT` leaves (R151). -/
structure Holds (M : List Bool) (s : State) : Prop where
  acc        : s.acc = hashBlocks M (M.length / 512)
  total      : s.totalBits = BitVec.ofNat 256 M.length
  fill       : s.fillBits.toNat = M.length % 512
  byte_pos   : s.bytePos.toNat = s.fillBits.toNat / 8
  bits       : ∀ i, i < s.fillBits.toNat → blockBit s.block i = M.getD (512 * (M.length / 512) + i) false
  clean_tail : CleanTail s

/-! ### What is still read -/

/-- Two states agree on every register a rule may still read: all of them while `ACTIVE`, less the stale bytes
`BLOCK[j]`, `j > BYTEPOS` (R155), and none of the HashState otherwise (R37, R38). -/
structure SameLiveState (s t : State) : Prop where
  phase     : s.phase = t.phase
  code      : s.code = t.code
  err       : s.err = t.err
  align     : s.partialAlign = t.partialAlign
  inputs    : s.inputs = t.inputs
  responses : s.responses = t.responses
  acc       : s.phase = .active → s.acc = t.acc
  fillBits  : s.phase = .active → s.fillBits = t.fillBits
  bytePos   : s.phase = .active → s.bytePos = t.bytePos
  totalBits : s.phase = .active → s.totalBits = t.totalBits
  block     : s.phase = .active → ∀ j : Fin 64, j.val ≤ s.bytePos.toNat → s.block.get j = t.block.get j

/-! ### Safe runs -/

/-- A run ended well: no fault recorded and no frame refused (R243). -/
def EndedWell (s : State) : Prop := NoFault s ∧ NoRefusal s

/-- An instruction the host can issue: any but COMPRESS (R74). -/
def isHostCommand : Instr → Bool
  | .init | .absorb _ _ | .finalize | .illegal _ => true
  | .compress => false

end Sys2Proof.Machine
end

