-- ==== Sys2Proof/Certificates/Slice0/Obligations.lean ====
section
/-! DEFINITION. The statements about the model, for the provers. Each docstring names the rule of spec/ it formalises. -/

open Sys2Proof Sys2Proof.Machine

/-! ### Encoding -/

/-- R80 and 95_test_vectors.md V-E5 to V-E7: words and frames written out byte by byte decode to what the spec says
they stand for. -/
def Obligations.SpecFramesDecode : Prop :=
  decodeFrame [0x00, 0x00, 0x00, 0x01] = .ok .init ∧
  decodeFrame [0x00, 0x00, 0x00, 0x02, 0x00, 0x00, 0x00, 0x00, 0x00, 0x00, 0x00, 0x18, 0x61, 0x62, 0x63]
    = .ok (.absorb 24 [0x61, 0x62, 0x63]) ∧
  decodeFrame [0x00, 0x00, 0x00, 0x02, 0x00, 0x00, 0x00, 0x00, 0x00, 0x00, 0x00, 0x04, 0xa0]
    = .ok (.absorb 4 [0xa0]) ∧
  decodeFrame [0x00, 0x00, 0x00, 0x02, 0x00, 0x00, 0x00, 0x00, 0x00, 0x00, 0x00, 0x00] = .ok (.absorb 0 []) ∧
  decodeFrame [0x00, 0x00, 0x00, 0x03] = .ok .finalize ∧
  decodeFrame [0x00, 0x00, 0x00, 0x04] = .ok (.illegal 0x00000004) ∧
  decodeFrame [0x00, 0x00, 0x01, 0x02] = .ok (.illegal 0x00000102) ∧
  decodeFrame [0x00, 0x00, 0x00, 0x00] = .ok (.illegal 0x00000000)

/-- Decoding the frame of a well-formed instruction gives it back, with every operand at every value, whatever bytes
follow it on the stream; only COMPRESS has no frame (R71, R72, R85). -/
def Obligations.DecodeReadsBackEncode : Prop :=
  (∀ i : Instr, encode i = none ↔ i = .compress) ∧
  ∀ (i : Instr) (frame rest : List Byte), i.wf = true → encode i = some frame →
    decode (frame ++ rest) = .ok (i, rest) ∧ decodeFrame frame = .ok i

/-- Every frame the decoder accepts is the frame of the one well-formed host command it decodes to: no two readings,
no byte ignored (R71, R76, R77). -/
def Obligations.EncodeGivesBackDecodedFrame : Prop :=
  ∀ (frame : List Byte) (i : Instr), decodeFrame frame = .ok i →
    i.wf = true ∧ isHostCommand i = true ∧ encode i = some frame

/-- R76 with the opcode map R74 and the illegal encodings R75: every 32-bit word is one of the three commands or
illegal. -/
def Obligations.EveryCommandWordIsACommandOrIllegal : Prop :=
  ∀ w : CmdWord,
    (w = 0x00000001 → decodeFrame (be32Bytes w) = .ok .init) ∧
    (w = 0x00000002 → ∀ (n : BitCount) (data : List Byte), data.length = (n.toNat + 7) / 8 →
      decodeFrame (be32Bytes w ++ be64Bytes n ++ data) = .ok (.absorb n data)) ∧
    (w = 0x00000003 → decodeFrame (be32Bytes w) = .ok .finalize) ∧
    (w.toNat % 256 = 0 ∨ 4 ≤ w.toNat % 256 ∨ w.toNat / 256 ≠ 0 → decodeFrame (be32Bytes w) = .ok (.illegal w))

/-- R77: the length of a frame is fixed by `OP` and, for `ABSORB`, by `BITCOUNT`. -/
def Obligations.FrameLengthIsFixedByItsCommand : Prop :=
  ∀ (frame : List Byte) (i : Instr), decodeFrame frame = .ok i →
    match i with
    | .init => frame.length = 4
    | .absorb n _ => frame.length = 4 + 8 + (n.toNat + 7) / 8
    | .finalize => frame.length = 4
    | .compress => False
    | .illegal _ => frame.length = 4

/-- R78: an `ABSORB` whose data are not `ceil(BITCOUNT/8)` bytes and a frame cut short are refused. -/
def Obligations.MalformedFramesAreRefused : Prop :=
  (∀ (s : State) (rest : List HostInput) (n : BitCount) (data : List Byte), data.length ≠ (n.toNat + 7) / 8 →
    s.inputs = .frame (be32Bytes 0x00000002 ++ be64Bytes n ++ data) :: rest →
    step s = .refused (.malformedFrame (if data.length < (n.toNat + 7) / 8 then .cutShort else .excessBytes))) ∧
  (∀ (s : State) (rest : List HostInput) (i : Instr) (frame : List Byte) (k : Nat), i.wf = true →
    encode i = some frame → k < frame.length → s.inputs = .frame (frame.take k) :: rest →
    step s = .refused (.malformedFrame .cutShort))

/-- The model's choice (log entry 16, after R78): an `ABSORB` term without `ceil(n/8)` bytes is refused in every phase,
before the phase check. No frame decodes to such a term. -/
def Obligations.MalformedAbsorbTermIsRefused : Prop :=
  ∀ (s : State) (n : BitCount) (data : List Byte), data.length ≠ (n.toNat + 7) / 8 →
    exec (.absorb n data) s
      = .refused (.malformedFrame (if data.length < (n.toNat + 7) / 8 then .cutShort else .excessBytes))

/-! ### The step -/

/-- A step performs the instruction of the oldest frame, and takes the frame (R59, R62). The second clause is the model's
choice (log entries 10 and 11): a word numbered as the opcode table numbers it, its operand bits from 32 and 96 on, is
placed by `withFetchWord` before all other inputs and is performed by the very next step. -/
def Obligations.StepRunsDecodedInstruction : Prop :=
  (∀ (s : State) (frame : List Byte) (rest : List HostInput) (i : Instr), s.inputs = .frame frame :: rest →
    decodeFrame frame = .ok i → step s = exec i { s with inputs := rest }) ∧
  (∀ (s : State) (nbits w : Nat) (i : Instr), decodeTableWord nbits w = some i →
    step (s.withFetchWord nbits w) = exec i s)

/-- The model's choice (log entries 8 and 9, after R215 and R231): with nothing sent a step changes nothing, and a
reset leaves the channels and the model's own fields. -/
def Obligations.WaitingAndResetLeaveTheChannels : Prop :=
  (∀ s : State, s.inputs = [] → step s = .next s) ∧
  (∀ (s : State) (rest : List HostInput), s.inputs = .reset :: rest →
    ∃ t, step s = .next t ∧ t.inputs = rest ∧ t.responses = s.responses ∧ t.freeCount = s.freeCount ∧
      t.compressions = s.compressions ∧ t.refusalMark = s.refusalMark)

/-- R230, with the values of R38: reset sets every register, from any state. -/
def Obligations.ResetSetsEveryRegister : Prop :=
  ∀ (s : State) (rest : List HostInput), s.inputs = .reset :: rest → ∃ t, step s = .next t ∧ AfterReset t

/-- R38: the values after reset. -/
def Obligations.ResetStateHoldsSpecValues : Prop :=
  State.reset.acc = Vector.replicate 8 0 ∧ State.reset.block = Vector.replicate 64 0 ∧ State.reset.fillBits = 0 ∧
  State.reset.bytePos = 0 ∧ State.reset.totalBits = 0 ∧ State.reset.phase = .idle ∧ State.reset.status = 0x00

/-! ### STATUS -/

/-- R27, with the values R26 and R28 give the fields: `PHASE` in bits 1:0, `CODE` in bits 3:2, neither ever 3, bits
6:4 zero, `ERR` in bit 7. -/
def Obligations.StatusFieldsReadAsSpecified : Prop :=
  ∀ s : State,
    s.status.extractLsb' 0 2 = (match s.phase with | .idle => 0#2 | .active => 1#2 | .finalized => 2#2) ∧
    s.status.extractLsb' 2 2
      = (match s.code with | .ok => 0#2 | .errInvalidState => 1#2 | .errIllegalCommand => 2#2) ∧
    s.status.extractLsb' 4 3 = 0 ∧ s.status.getLsbD 7 = s.err

/-- R73: every command returns one response, its code is the one written to `STATUS.CODE`, and it carries the 64
digest bytes exactly when it is a `FINALIZE` that ended with `OK`: those of the accumulator (R177). -/
def Obligations.EveryCommandRespondsWithItsCode : Prop :=
  ∀ (i : Instr) (s t : State), isHostCommand i = true → exec i s = .next t →
    ∃ r : Response, t.responses = s.responses ++ [r] ∧ t.code = r.code ∧
      t.status.extractLsb' 2 2
        = (match r.code with | .ok => 0#2 | .errInvalidState => 1#2 | .errIllegalCommand => 2#2) ∧
      (r.digest.isSome = true ↔ i = .finalize ∧ r.code = .ok) ∧
      (∀ D, r.digest = some D → D = digestBytes t.acc ∧ r.bytes.tail = D.toList) ∧
      r.bytes.length = (if r.digest.isSome then 65 else 1) ∧
      r.bytes.head? = some (match r.code with | .ok => 0 | .errInvalidState => 1 | .errIllegalCommand => 2)

/-- R29: `STATUS.ERR` is set by a command whose code is not zero, and nothing but reset clears it. -/
def Obligations.ErrorFlagIsSetByErrorsAndClearedOnlyByReset : Prop :=
  ∀ s t : State, step s = .next t →
    (∀ rest, s.inputs = .reset :: rest → t.err = false) ∧
    (∀ frame rest, s.inputs = .frame frame :: rest → (t.err = true ↔ s.err = true ∨ t.code ≠ .ok)) ∧
    (s.inputs = [] → t.err = s.err)

/-- R26: `INIT` sets `ACTIVE` from any phase, `FINALIZE` sets `FINALIZED` from `ACTIVE`, reset sets `IDLE`, no other
instruction writes `PHASE`, and its value is 0, 1 or 2. -/
def Obligations.PhaseMovesOnlyByInitFinalizeAndReset : Prop :=
  (∀ (i : Instr) (s t : State), exec i s = .next t →
    t.phase = (match i with
      | .init => .active
      | .finalize => if s.phase = .active then .finalized else s.phase
      | .absorb _ _ => s.phase
      | .compress => s.phase
      | .illegal _ => s.phase)) ∧
  (∀ (s : State) (rest : List HostInput), s.inputs = .reset :: rest → ∃ t, step s = .next t ∧ t.phase = .idle) ∧
  (Phase.bits .idle = 0 ∧ Phase.bits .active = 1 ∧ Phase.bits .finalized = 2 ∧ ∀ p : Phase, p.bits ≠ 3)

/-! ### INIT -/

/-- R140: `INIT`, in every phase, zeroes the HashState, enters `ACTIVE`, answers `OK`, and changes nothing else:
`STATUS.ERR` is unchanged. -/
def Obligations.InitCreatesZeroedHashState : Prop :=
  ∀ s : State, exec .init s = .next { s with
    acc := Vector.replicate 8 0, block := Vector.replicate 64 0, fillBits := 0, bytePos := 0, totalBits := 0,
    phase := .active, code := .ok, responses := s.responses ++ [{ code := .ok, digest := none }] }

/-! ### ABSORB -/

/-- R143, R145: in phase `ACTIVE` every well-formed `ABSORB` completes with `OK`, adds `n` to `TOTALBITS` modulo
`2^256`, and leaves `PHASE`, `STATUS.ERR` and what is still to be taken unchanged. -/
def Obligations.AbsorbCompletesAndTalliesItsBits : Prop :=
  ∀ (s : State) (n : BitCount) (data : List Byte), s.phase = .active → data.length = (n.toNat + 7) / 8 →
    ∃ t, exec (.absorb n data) s = .next t ∧
      t.totalBits.toNat = (s.totalBits.toNat + n.toNat) % 2 ^ 256 ∧
      t.phase = .active ∧ t.code = .ok ∧ t.err = s.err ∧
      t.responses = s.responses ++ [{ code := .ok, digest := none }] ∧
      t.inputs = s.inputs ∧ t.freeCount = s.freeCount ∧ t.refusalMark = s.refusalMark

/-- R142, R204: `ABSORB` outside `ACTIVE` ends with `ERR_INVALID_STATE`, and only `STATUS` and the response change. -/
def Obligations.AbsorbOutsideActiveIsInvalidState : Prop :=
  ∀ (s : State) (n : BitCount) (data : List Byte), s.phase ≠ .active → data.length = (n.toNat + 7) / 8 →
    exec (.absorb n data) s = .next { s with
      code := .errInvalidState, err := true,
      responses := s.responses ++ [{ code := .errInvalidState, digest := none }] }

/-- R153: `ABSORB 0` in phase `ACTIVE` changes no HashState register and responds `OK`; in any other phase it ends with
`ERR_INVALID_STATE`. -/
def Obligations.EmptyAbsorbChangesNoHashStateRegister : Prop :=
  ∀ s : State,
    (s.phase = .active → exec (.absorb 0 []) s = .next { s with
      code := .ok, responses := s.responses ++ [{ code := .ok, digest := none }] }) ∧
    (s.phase ≠ .active → exec (.absorb 0 []) s = .next { s with
      code := .errInvalidState, err := true,
      responses := s.responses ++ [{ code := .errInvalidState, digest := none }] })

/-- R151: after `INIT` the HashState holds no bits, and after every successful `ABSORB` it holds the message absorbed so
far followed by the bits of the command; so after any number of them it holds the concatenation. The bits are those of
the state's own `PARTIAL_ALIGN`, `LEFT` (R146) or `RIGHT` (R147). -/
def Obligations.AbsorbAppendsItsBitsToTheMessage : Prop :=
  (∀ s : State, ∃ t, exec .init s = .next t ∧ t.phase = .active ∧ Holds [] t) ∧
  (∀ (M : List Bool) (s : State) (n : BitCount) (data : List Byte), Holds M s → s.phase = .active →
    data.length = (n.toNat + 7) / 8 →
    ∃ t, exec (.absorb n data) s = .next t ∧ Holds (M ++ commandBits s.partialAlign n data) t) ∧
  (∀ (M : List Bool) (s : State) (pieces : List (BitCount × List Byte)), Holds M s → s.phase = .active →
    (∀ p ∈ pieces, p.2.length = (p.1.toNat + 7) / 8) →
    Holds (M ++ pieces.flatMap fun p => commandBits s.partialAlign p.1 p.2)
      (runProgram (pieces.map fun p => .absorb p.1 p.2) s))

/-- R152: on exit from `ABSORB`, `FILLBITS < 512`, `BYTEPOS = FILLBITS >> 3 < 64`, and the current byte is clean past
the fill mark. -/
def Obligations.AbsorbExitInvariant : Prop :=
  ∀ (s : State) (n : BitCount) (data : List Byte), BufferInv s → s.phase = .active →
    data.length = (n.toNat + 7) / 8 →
    ∃ t, exec (.absorb n data) s = .next t ∧ t.fillBits.toNat < 512 ∧
      t.bytePos.toNat = t.fillBits.toNat / 8 ∧ t.bytePos.toNat < 64 ∧ CleanTail t

/-- R154: an `ABSORB` of `n` bits from fill level `f` runs COMPRESS exactly `floor((f + n) / 512)` times,
counted by the model's field `compressions` (log entry 13). -/
def Obligations.AbsorbCompressionCount : Prop :=
  ∀ (s t : State) (n : BitCount) (data : List Byte), BufferInv s → s.phase = .active →
    exec (.absorb n data) s = .next t →
    t.compressions = s.compressions + (s.fillBits.toNat + n.toNat) / 512

/-- R156: absorbing a bit string in two commands, cut at any bit position, leaves the same live registers as absorbing
it in one; and two digest runs whose pieces concatenate to one bit string return the same digest, however they are
cut. -/
def Obligations.AbsorbIsIndependentOfTheSplit : Prop :=
  (∀ (M : List Bool) (s : State) (n₁ n₂ n : BitCount) (data₁ data₂ data : List Byte), Holds M s → s.phase = .active →
    data₁.length = (n₁.toNat + 7) / 8 → data₂.length = (n₂.toNat + 7) / 8 → data.length = (n.toNat + 7) / 8 →
    commandBits s.partialAlign n data
      = commandBits s.partialAlign n₁ data₁ ++ commandBits s.partialAlign n₂ data₂ →
    ∃ t₁ t₂ t, exec (.absorb n₁ data₁) s = .next t₁ ∧ exec (.absorb n₂ data₂) t₁ = .next t₂ ∧
      exec (.absorb n data) s = .next t ∧
      t₂.acc = t.acc ∧ t₂.totalBits = t.totalBits ∧ t₂.fillBits = t.fillBits ∧ t₂.bytePos = t.bytePos ∧
      (∀ i, i < t.fillBits.toNat → blockBit t₂.block i = blockBit t.block i)) ∧
  (∀ (s : State) (pieces pieces' : List (BitCount × List Byte)),
    (∀ p ∈ pieces, p.2.length = (p.1.toNat + 7) / 8) → (∀ p ∈ pieces', p.2.length = (p.1.toNat + 7) / 8) →
    pieces.flatMap (fun p => commandBits s.partialAlign p.1 p.2)
      = pieces'.flatMap (fun p => commandBits s.partialAlign p.1 p.2) →
    ∃ D, (observe s (programFrames (digestProgram pieces))).digestValue = some D ∧
      (observe s (programFrames (digestProgram pieces'))).digestValue = some D)

/-- R159: the data bits that are not among the `n` bits of the command may have any value, under either alignment. -/
def Obligations.UnusedDataBitsAreIgnored : Prop :=
  ∀ (s : State) (n : BitCount) (data data' : List Byte),
    data.length = (n.toNat + 7) / 8 → data'.length = (n.toNat + 7) / 8 →
    commandBits s.partialAlign n data = commandBits s.partialAlign n data' →
    exec (.absorb n data) s = exec (.absorb n data') s

/-- The frame of an `ABSORB` that stays within the block (R141, R149, R150): no COMPRESS runs, `ACC` is unchanged,
`FILLBITS` and `BYTEPOS` move by the bits absorbed, and every valid bit of `BLOCK` keeps its value: all bytes below the
old `BYTEPOS`, and the valid bits of the byte at it. The bytes past the new `BYTEPOS` are stale, and the spec lets them
have any value (R155): nothing is said of them. -/
def Obligations.AbsorbWithinTheBlockFrame : Prop :=
  ∀ (s t : State) (n : BitCount) (data : List Byte), BufferInv s → s.phase = .active →
    s.fillBits.toNat + n.toNat < 512 → exec (.absorb n data) s = .next t →
    t.acc = s.acc ∧ t.compressions = s.compressions ∧
    t.fillBits.toNat = s.fillBits.toNat + n.toNat ∧ t.bytePos.toNat = (s.fillBits.toNat + n.toNat) / 8 ∧
    (∀ j : Fin 64, j.val < s.bytePos.toNat → t.block.get j = s.block.get j) ∧
    (∀ i, i < s.fillBits.toNat → blockBit t.block i = blockBit s.block i) ∧
    (∀ i, i < n.toNat → blockBit t.block (s.fillBits.toNat + i) = commandBit s.partialAlign n data i)

/-- R144: the byte-wise tally with early stop computes the value of the 256-bit addition. -/
def Obligations.BytewiseTallyIsTheAddition : Prop :=
  ∀ (T : BitVec 256) (n : BitCount), tallyBytewise (totalBytes T) n = totalBytes (tally T n)

/-- R56, R147: when `n` is a multiple of 8 both alignments take every bit of every data byte in order, most
significant bit first, and an `ABSORB` leaves the same state whichever the engine has. -/
def Obligations.AlignmentsAgreeOnWholeBytes : Prop :=
  ∀ (s : State) (n : BitCount) (data : List Byte), n.toNat % 8 = 0 → data.length = (n.toNat + 7) / 8 →
    commandBits .left n data = bitsOfBytes data ∧ commandBits .right n data = bitsOfBytes data ∧
    ∃ t : State, exec (.absorb n data) { s with partialAlign := .left } = .next { t with partialAlign := .left } ∧
      exec (.absorb n data) { s with partialAlign := .right } = .next { t with partialAlign := .right }

/-! ### COMPRESS -/

/-- R120: COMPRESS writes `ACC`, a function of `ACC` and `BLOCK` only, and nothing else of the engine: no `FILLBITS`,
`BYTEPOS`, `TOTALBITS`, `PHASE` or `STATUS`. -/
def Obligations.CompressWritesOnlyAcc : Prop :=
  ∀ s : State, ∃ t, exec .compress s = .next t ∧ t.acc = compress s.acc s.block ∧ t.block = s.block ∧
    t.fillBits = s.fillBits ∧ t.bytePos = s.bytePos ∧ t.totalBits = s.totalBits ∧ t.phase = s.phase ∧
    t.status = s.status ∧ t.inputs = s.inputs ∧ t.responses = s.responses

/-- R124, R125, R127: with `K^r` and `S^r` by their recursions, COMPRESS gives `ACC ^ S^10 ^ m` in every word. -/
def Obligations.CompressIsTheFeedForwardOfTenRounds : Prop :=
  ∀ (acc : Words) (blk : Block) (i : Fin 8),
    (compress acc blk).get i = acc.get i ^^^ (cipherState acc blk 10).get i ^^^ (blockWords blk).get i

/-- R130: the lookup form of the round transform is the composition `sigma[k](theta(pi(gamma(A))))`. -/
def Obligations.RoundTransformIsTheAlgebraicComposition : Prop :=
  ∀ A k : Words, rho A k = rhoAlgebraic A k

/-- 40_constant_tables.md section 2: the S-box is a permutation of the byte values, every value occurs once. -/
def Obligations.SboxIsAPermutation : Prop :=
  ∀ y : Byte, ∃ x : Byte, sbox x = y ∧ ∀ x' : Byte, sbox x' = y → x' = x

/-! ### FINALIZE -/

/-- R177, R178: in phase `ACTIVE`, `FINALIZE` completes with `OK` in phase `FINALIZED`, returns the accumulator words
most significant byte first, keeps them in `ACC`, and leaves `STATUS.ERR` and what is still to be taken unchanged.
Nothing is said of `BLOCK`, `FILLBITS`, `BYTEPOS` and `TOTALBITS`, which are unspecified. -/
def Obligations.FinalizeReturnsTheAccumulatorBytes : Prop :=
  ∀ s : State, s.phase = .active →
    ∃ t D, exec .finalize s = .next t ∧ t.phase = .finalized ∧ t.code = .ok ∧ t.err = s.err ∧
      t.responses = s.responses ++ [{ code := .ok, digest := some D }] ∧
      (∀ i j : Fin 8, D.get ⟨8 * i.val + j.val, by omega⟩ = (t.acc.get i).extractLsb' (56 - 8 * j.val) 8) ∧
      t.inputs = s.inputs ∧ t.refusalMark = s.refusalMark

/-- R171, R204: `FINALIZE` outside `ACTIVE` ends with `ERR_INVALID_STATE`, and only `STATUS` and the response
change. -/
def Obligations.FinalizeOutsideActiveIsInvalidState : Prop :=
  ∀ s : State, s.phase ≠ .active →
    exec .finalize s = .next { s with
      code := .errInvalidState, err := true,
      responses := s.responses ++ [{ code := .errInvalidState, digest := none }] }

/-- R180: the digest is that of the padded message; the padding has the least number of zeros, the padded string is
whole blocks, and its last 256 bits are the length. -/
def Obligations.FinalizeReturnsTheDigestOfThePaddedMessage : Prop :=
  (∀ (M : List Bool) (s : State), Holds M s → s.phase = .active →
    ∃ t, exec .finalize s = .next t ∧
      t.responses = s.responses ++ [{ code := .ok, digest := some (messageDigest M) }] ∧
      t.acc = hashBlocks (padded M) ((padded M).length / 512)) ∧
  (∀ M : List Bool, (padded M).length % 512 = 0 ∧ (M.length + 1 + padZeros M.length) % 512 = 256 ∧
    (∀ z, (M.length + 1 + z) % 512 = 256 → padZeros M.length ≤ z) ∧
    (padded M).drop ((padded M).length - 256) = lengthBits M.length)

/-- R179: `FINALIZE` runs COMPRESS twice when `BYTEPOS ≥ 32` before step 1, equivalently `FILLBITS ≥ 256`, and once
otherwise, counted by the model's field `compressions` (log entry 13). -/
def Obligations.FinalizeCompressionCount : Prop :=
  ∀ s : State, BufferInv s → s.phase = .active →
    (32 ≤ s.bytePos.toNat ↔ 256 ≤ s.fillBits.toNat) ∧
    ∃ t, exec .finalize s = .next t ∧
      t.compressions = s.compressions + (if 32 ≤ s.bytePos.toNat then 2 else 1)

/-! ### Errors -/

/-- R203: a command word with `CMD[31:8] ≠ 0` or `CMD[7:0]` not in {0x01, 0x02, 0x03} raises `ERR_ILLEGAL_COMMAND` in
every phase, only `STATUS` and the response change, and no operand is read after it. -/
def Obligations.IllegalWordsRaiseIllegalCommandInEveryPhase : Prop :=
  ∀ w : CmdWord, (w.toNat / 256 ≠ 0 ∨ (w.toNat % 256 ≠ 1 ∧ w.toNat % 256 ≠ 2 ∧ w.toNat % 256 ≠ 3)) →
    (∀ s : State, exec (.illegal w) s = .next { s with
      code := .errIllegalCommand, err := true,
      responses := s.responses ++ [{ code := .errIllegalCommand, digest := none }] }) ∧
    (∀ (s : State) (rest : List HostInput), s.inputs = .frame (be32Bytes w) :: rest →
      step s = .next { s with
        inputs := rest, code := .errIllegalCommand, err := true,
        responses := s.responses ++ [{ code := .errIllegalCommand, digest := none }] }) ∧
    (∀ rest : List Byte, decode (be32Bytes w ++ rest) = .ok (.illegal w, rest))

/-- The model's choice (log entry 7): a term of the illegal class that carries one of the three command words, which no
frame decodes to, raises the same error. -/
def Obligations.IllFormedIllegalTermRaisesTheSameError : Prop :=
  ∀ (s : State) (w : CmdWord), w = 0x00000001 ∨ w = 0x00000002 ∨ w = 0x00000003 →
    exec (.illegal w) s = .next { s with
      code := .errIllegalCommand, err := true,
      responses := s.responses ++ [{ code := .errIllegalCommand, digest := none }] }

/-- R204: an instruction that responds with an error code changes no register but `STATUS`. -/
def Obligations.ErrorsChangeOnlyStatus : Prop :=
  ∀ (i : Instr) (s t : State) (r : Response), exec i s = .next t → t.responses = s.responses ++ [r] →
    r.code ≠ .ok →
    t = { s with code := r.code, err := true, responses := s.responses ++ [{ code := r.code, digest := none }] }

/-- R202: which command ends with which code in which phase, and the phase it leaves. -/
def Obligations.ResultByCommandAndPhase : Prop :=
  ∀ s : State,
    (∃ t, exec .init s = .next t ∧ t.code = .ok ∧ t.phase = .active) ∧
    (∀ (n : BitCount) (data : List Byte), data.length = (n.toNat + 7) / 8 →
      ∃ t, exec (.absorb n data) s = .next t ∧
        t.code = (match s.phase with
          | .idle => .errInvalidState | .active => .ok | .finalized => .errInvalidState) ∧
        t.phase = s.phase) ∧
    (∃ t, exec .finalize s = .next t ∧
      t.code = (match s.phase with
        | .idle => .errInvalidState | .active => .ok | .finalized => .errInvalidState) ∧
      t.phase = (match s.phase with | .idle => .idle | .active => .finalized | .finalized => .finalized))

/-! ### Invariants -/

/-- R36: the invariants of the buffer, which hold between commands while `PHASE = ACTIVE`, are kept by every step. -/
def Obligations.EveryStepKeepsTheBufferInvariant : Prop :=
  ∀ s t : State, Inv s → step s = .next t → Inv t

/-- The invariant of R36 holds at reset. -/
def Obligations.ResetMeetsTheBufferInvariant : Prop := Inv State.reset ∧ ∀ s : State, AfterReset s → Inv s

/-- R151: whatever steps are taken, a HashState in phase `ACTIVE` holds some message, one that starts empty at `INIT`
and that only `ABSORB` extends. -/
def Obligations.EveryStepKeepsAHeldMessage : Prop :=
  ∀ s t : State, (s.phase = .active → ∃ M, Holds M s) → step s = .next t →
    t.phase = .active →
      Holds [] t ∨ ∃ M, Holds M s ∧ (Holds M t ∨ ∃ n data, Holds (M ++ commandBits s.partialAlign n data) t)

/-- R157, with R36: after `INIT` and any number of `ABSORB`, of whatever total length `N`, also past `2^256`, the
HashState holds the message, `FILLBITS = N mod 512 = TOTALBITS mod 512`, `TOTALBITS = N mod 2^256`, and the buffer
invariants hold; and after any run from reset, refused frames included, `FILLBITS = TOTALBITS mod 512` whenever
`PHASE = ACTIVE`. -/
def Obligations.HeldMessageMeetsTheBufferInvariant : Prop :=
  (∀ (s : State) (pieces : List (BitCount × List Byte)), (∀ p ∈ pieces, p.2.length = (p.1.toNat + 7) / 8) →
    let t := runProgram (.init :: pieces.map fun p => .absorb p.1 p.2) s
    let N := (pieces.map fun p => p.1.toNat).sum
    t.phase = .active ∧ Holds (pieces.flatMap fun p => commandBits s.partialAlign p.1 p.2) t ∧ BufferInv t ∧
      t.fillBits.toNat = N % 512 ∧ t.totalBits.toNat = N % 2 ^ 256 ∧
      t.fillBits.toNat = t.totalBits.toNat % 512) ∧
  (∀ (s : State) (frames : List (List Byte)), AfterReset s → (runFrames frames s).phase = .active →
    (runFrames frames s).fillBits.toNat = (runFrames frames s).totalBits.toNat % 512 ∧
      BufferInv (runFrames frames s) ∧ ∃ M, Holds M (runFrames frames s))

/-- 10_state.md section 2: `ACC` is written by `INIT` and by COMPRESS, and by nothing else: an instruction
other than `INIT` that ran no COMPRESS, by the model's count (log entry 13), leaves it. -/
def Obligations.AccIsWrittenOnlyByInitAndCompress : Prop :=
  ∀ (i : Instr) (s t : State), exec i s = .next t → i ≠ .init → t.compressions = s.compressions → t.acc = s.acc

/-- R7: the parameter `PARTIAL_ALIGN` is fixed for the engine: no instruction and no step writes it. After
`State.reset` it is `LEFT`. -/
def Obligations.NoStepWritesTheParameter : Prop :=
  (∀ (i : Instr) (s t : State), exec i s = .next t → t.partialAlign = s.partialAlign) ∧
  (∀ s t : State, step s = .next t → t.partialAlign = s.partialAlign) ∧
  (∀ (frames : List (List Byte)) (s : State), (runFrames frames s).partialAlign = s.partialAlign) ∧
  State.reset.partialAlign = .left

/-! ### What is never read -/

/-- The stale bytes `BLOCK[j]`, `j > BYTEPOS`, and the HashState outside `ACTIVE` are never read (R155, R37, R38): two
states that agree on everything else stay so under every step and answer the same. -/
def Obligations.OnlyLiveStateIsEverRead : Prop :=
  ∀ s t : State, SameLiveState s t → Inv s →
    (∀ s', step s = .next s' → ∃ t', step t = .next t' ∧ SameLiveState s' t') ∧
    (∀ r, step s = .refused r → step t = .refused r)

/-! ### Runs -/

/-- R242, R236: a run over well-formed frames reaches its end, with one response for each frame, and refuses
nothing. -/
def Obligations.RunAnswersEveryWellFormedFrame : Prop :=
  ∀ (frames : List (List Byte)) (s : State), (∀ f ∈ frames, ∃ i, decodeFrame f = .ok i) →
    ∃ rs : List Response, (runFrames frames s).responses = s.responses ++ rs ∧ rs.length = frames.length ∧
      (runFrames frames s).inputs = s.inputs ∧ (runFrames frames s).refusalMark = s.refusalMark

/-- R242: the observation of a run is the list of its own responses and the final `STATUS`. Over well-formed frames it
has one response for each frame; it does not depend on what was returned before the launch. -/
def Obligations.ObservationIsTheRunsOwnResponsesAndFinalStatus : Prop :=
  (∀ (s : State) (frames : List (List Byte)),
    (runFrames frames s).responses = s.responses ++ (observe s frames).responses ∧
    (observe s frames).status = (runFrames frames s).status) ∧
  (∀ (s : State) (frames : List (List Byte)), (∀ f ∈ frames, ∃ i, decodeFrame f = .ok i) →
    (observe s frames).responses.length = frames.length) ∧
  (∀ (s : State) (earlier : List Response) (frames : List (List Byte)),
    observe { s with responses := earlier } frames = observe s frames)

/-- After R243: the refusal mark is set by a refused frame and never cleared within a run. That the run goes on after a
refused frame is the model's choice (log entry 14). -/
def Obligations.RefusalMarkIsSetAndKept : Prop :=
  ∀ (frames : List (List Byte)) (s : State),
    (runFrames frames s).refusalMark = true ↔
      s.refusalMark = true ∨ ∃ f ∈ frames, ∃ e, decodeFrame f = .error e

/-- R233, R242: from any state, the run of `INIT`, any number of `ABSORB`, `FINALIZE` answers every command with `OK`, its
observed value is the digest of the concatenated bit strings, and it ends in phase `FINALIZED` with `STATUS.ERR` as it
was. -/
def Obligations.DigestRunReturnsTheMessageDigest : Prop :=
  ∀ (s : State) (pieces : List (BitCount × List Byte)),
    (∀ p ∈ pieces, p.2.length = (p.1.toNat + 7) / 8) →
    let o := observe s (programFrames (digestProgram pieces))
    let D := messageDigest (pieces.flatMap fun p => commandBits s.partialAlign p.1 p.2)
    o.digestValue = some D ∧
      o.responses = List.replicate (pieces.length + 1) { code := .ok, digest := none }
        ++ [{ code := .ok, digest := some D }] ∧
      o.status = statusByte .finalized .ok s.err

/-- R182: the salted digest of a message is the digest of the salt followed by the message, whether the two are given
to one `ABSORB` or to two. -/
def Obligations.SaltComposition : Prop :=
  ∀ (s : State) (message salt : List Byte), 8 * (salt ++ message).length < 2 ^ 64 →
    (runProgram (Assembler.digestSalted message salt) s).responses.getLast?
      = (runProgram (Assembler.digest (salt ++ message)) s).responses.getLast? ∧
    (runProgram [.init, Assembler.absorbs salt, Assembler.absorbs message, .finalize] s).responses.getLast?
      = (runProgram (Assembler.digest (salt ++ message)) s).responses.getLast? ∧
    (runProgram (Assembler.digest (salt ++ message)) s).responses.getLast?
      = some { code := .ok, digest := some (messageDigest (bitsOfBytes (salt ++ message))) }

/-! ### The assembler -/

/-- R79: the assembler refuses an `ABSORB` without `ceil(n/8)` bytes: every instruction of a program it accepts is a
well-formed host command. -/
def Obligations.AssembledProgramsAreWellFormed : Prop :=
  ∀ (text : List Char) (program : List Instr), Assembler.assemble text = some program →
    ∀ i ∈ program, i.wf = true ∧ isHostCommand i = true

/-- R71: the frames of a program, carried as one byte stream, decode to the program. -/
def Obligations.ByteStreamDecodesToItsProgram : Prop :=
  ∀ program : List Instr, (∀ i ∈ program, i.wf = true ∧ isHostCommand i = true) →
    decodeStream (Assembler.byteStream program) = .ok program
end

