-- ==== Sys2Proof/Laws/State.lean ====
section
/-! SUPPORT. For every update of the state, one lemma for each field: what it holds after. -/

namespace Sys2Proof.Machine

/-! ### `respondOk` -/

@[simp] theorem respondOk_acc (d : Option Digest) (s : State) : (respondOk d s).acc = s.acc := rfl
@[simp] theorem respondOk_block (d : Option Digest) (s : State) : (respondOk d s).block = s.block := rfl
@[simp] theorem respondOk_fillBits (d : Option Digest) (s : State) : (respondOk d s).fillBits = s.fillBits := rfl
@[simp] theorem respondOk_bytePos (d : Option Digest) (s : State) : (respondOk d s).bytePos = s.bytePos := rfl
@[simp] theorem respondOk_totalBits (d : Option Digest) (s : State) : (respondOk d s).totalBits = s.totalBits := rfl
@[simp] theorem respondOk_phase (d : Option Digest) (s : State) : (respondOk d s).phase = s.phase := rfl
@[simp] theorem respondOk_code (d : Option Digest) (s : State) : (respondOk d s).code = .ok := rfl
@[simp] theorem respondOk_err (d : Option Digest) (s : State) : (respondOk d s).err = s.err := rfl
@[simp] theorem respondOk_inputs (d : Option Digest) (s : State) : (respondOk d s).inputs = s.inputs := rfl
@[simp] theorem respondOk_responses (d : Option Digest) (s : State) :
    (respondOk d s).responses = s.responses ++ [{ code := .ok, digest := d }] := rfl
@[simp] theorem respondOk_freeCount (d : Option Digest) (s : State) : (respondOk d s).freeCount = s.freeCount := rfl
@[simp] theorem respondOk_compressions (d : Option Digest) (s : State) :
    (respondOk d s).compressions = s.compressions := rfl
@[simp] theorem respondOk_refusalMark (d : Option Digest) (s : State) :
    (respondOk d s).refusalMark = s.refusalMark := rfl
@[simp] theorem respondOk_partialAlign (d : Option Digest) (s : State) :
    (respondOk d s).partialAlign = s.partialAlign := rfl

/-! ### `raiseError` -/

@[simp] theorem raiseError_acc (c : Code) (s : State) : (raiseError c s).acc = s.acc := rfl
@[simp] theorem raiseError_block (c : Code) (s : State) : (raiseError c s).block = s.block := rfl
@[simp] theorem raiseError_fillBits (c : Code) (s : State) : (raiseError c s).fillBits = s.fillBits := rfl
@[simp] theorem raiseError_bytePos (c : Code) (s : State) : (raiseError c s).bytePos = s.bytePos := rfl
@[simp] theorem raiseError_totalBits (c : Code) (s : State) : (raiseError c s).totalBits = s.totalBits := rfl
@[simp] theorem raiseError_phase (c : Code) (s : State) : (raiseError c s).phase = s.phase := rfl
@[simp] theorem raiseError_code (c : Code) (s : State) : (raiseError c s).code = c := rfl
@[simp] theorem raiseError_err (c : Code) (s : State) : (raiseError c s).err = true := rfl
@[simp] theorem raiseError_inputs (c : Code) (s : State) : (raiseError c s).inputs = s.inputs := rfl
@[simp] theorem raiseError_responses (c : Code) (s : State) :
    (raiseError c s).responses = s.responses ++ [{ code := c, digest := none }] := rfl
@[simp] theorem raiseError_freeCount (c : Code) (s : State) : (raiseError c s).freeCount = s.freeCount := rfl
@[simp] theorem raiseError_compressions (c : Code) (s : State) : (raiseError c s).compressions = s.compressions := rfl
@[simp] theorem raiseError_refusalMark (c : Code) (s : State) : (raiseError c s).refusalMark = s.refusalMark := rfl
@[simp] theorem raiseError_partialAlign (c : Code) (s : State) : (raiseError c s).partialAlign = s.partialAlign := rfl

/-! ### `runCompress` -/

@[simp] theorem runCompress_acc (s : State) : (runCompress s).acc = compress s.acc s.block := rfl
@[simp] theorem runCompress_block (s : State) : (runCompress s).block = s.block := rfl
@[simp] theorem runCompress_fillBits (s : State) : (runCompress s).fillBits = s.fillBits := rfl
@[simp] theorem runCompress_bytePos (s : State) : (runCompress s).bytePos = s.bytePos := rfl
@[simp] theorem runCompress_totalBits (s : State) : (runCompress s).totalBits = s.totalBits := rfl
@[simp] theorem runCompress_phase (s : State) : (runCompress s).phase = s.phase := rfl
@[simp] theorem runCompress_code (s : State) : (runCompress s).code = s.code := rfl
@[simp] theorem runCompress_err (s : State) : (runCompress s).err = s.err := rfl
@[simp] theorem runCompress_inputs (s : State) : (runCompress s).inputs = s.inputs := rfl
@[simp] theorem runCompress_responses (s : State) : (runCompress s).responses = s.responses := rfl
@[simp] theorem runCompress_freeCount (s : State) : (runCompress s).freeCount = s.freeCount := rfl
@[simp] theorem runCompress_compressions (s : State) : (runCompress s).compressions = s.compressions + 1 := rfl
@[simp] theorem runCompress_refusalMark (s : State) : (runCompress s).refusalMark = s.refusalMark := rfl
@[simp] theorem runCompress_partialAlign (s : State) : (runCompress s).partialAlign = s.partialAlign := rfl

/-! ### `zeroHashState` -/

@[simp] theorem zeroHashState_acc (s : State) : (zeroHashState s).acc = Vector.replicate 8 0 := rfl
@[simp] theorem zeroHashState_block (s : State) : (zeroHashState s).block = Vector.replicate 64 0 := rfl
@[simp] theorem zeroHashState_fillBits (s : State) : (zeroHashState s).fillBits = 0 := rfl
@[simp] theorem zeroHashState_bytePos (s : State) : (zeroHashState s).bytePos = 0 := rfl
@[simp] theorem zeroHashState_totalBits (s : State) : (zeroHashState s).totalBits = 0 := rfl
@[simp] theorem zeroHashState_phase (s : State) : (zeroHashState s).phase = s.phase := rfl
@[simp] theorem zeroHashState_code (s : State) : (zeroHashState s).code = s.code := rfl
@[simp] theorem zeroHashState_err (s : State) : (zeroHashState s).err = s.err := rfl
@[simp] theorem zeroHashState_inputs (s : State) : (zeroHashState s).inputs = s.inputs := rfl
@[simp] theorem zeroHashState_responses (s : State) : (zeroHashState s).responses = s.responses := rfl
@[simp] theorem zeroHashState_freeCount (s : State) : (zeroHashState s).freeCount = s.freeCount := rfl
@[simp] theorem zeroHashState_compressions (s : State) : (zeroHashState s).compressions = s.compressions := rfl
@[simp] theorem zeroHashState_refusalMark (s : State) : (zeroHashState s).refusalMark = s.refusalMark := rfl
@[simp] theorem zeroHashState_partialAlign (s : State) : (zeroHashState s).partialAlign = s.partialAlign := rfl

/-! ### `unspecifyBuffer` -/

@[simp] theorem unspecifyBuffer_acc (s : State) : (unspecifyBuffer s).acc = s.acc := rfl
@[simp] theorem unspecifyBuffer_block (s : State) : (unspecifyBuffer s).block = Config.freeBlock s.freeCount := rfl
@[simp] theorem unspecifyBuffer_fillBits (s : State) :
    (unspecifyBuffer s).fillBits = Config.freeFillBits s.freeCount := rfl
@[simp] theorem unspecifyBuffer_bytePos (s : State) :
    (unspecifyBuffer s).bytePos = Config.freeBytePos s.freeCount := rfl
@[simp] theorem unspecifyBuffer_totalBits (s : State) :
    (unspecifyBuffer s).totalBits = Config.freeTotalBits s.freeCount := rfl
@[simp] theorem unspecifyBuffer_phase (s : State) : (unspecifyBuffer s).phase = s.phase := rfl
@[simp] theorem unspecifyBuffer_code (s : State) : (unspecifyBuffer s).code = s.code := rfl
@[simp] theorem unspecifyBuffer_err (s : State) : (unspecifyBuffer s).err = s.err := rfl
@[simp] theorem unspecifyBuffer_inputs (s : State) : (unspecifyBuffer s).inputs = s.inputs := rfl
@[simp] theorem unspecifyBuffer_responses (s : State) : (unspecifyBuffer s).responses = s.responses := rfl
@[simp] theorem unspecifyBuffer_freeCount (s : State) : (unspecifyBuffer s).freeCount = s.freeCount + 1 := rfl
@[simp] theorem unspecifyBuffer_compressions (s : State) : (unspecifyBuffer s).compressions = s.compressions := rfl
@[simp] theorem unspecifyBuffer_refusalMark (s : State) : (unspecifyBuffer s).refusalMark = s.refusalMark := rfl
@[simp] theorem unspecifyBuffer_partialAlign (s : State) : (unspecifyBuffer s).partialAlign = s.partialAlign := rfl

/-! ### `applyReset` -/

@[simp] theorem applyReset_acc (s : State) : (applyReset s).acc = Vector.replicate 8 0 := rfl
@[simp] theorem applyReset_block (s : State) : (applyReset s).block = Vector.replicate 64 0 := rfl
@[simp] theorem applyReset_fillBits (s : State) : (applyReset s).fillBits = 0 := rfl
@[simp] theorem applyReset_bytePos (s : State) : (applyReset s).bytePos = 0 := rfl
@[simp] theorem applyReset_totalBits (s : State) : (applyReset s).totalBits = 0 := rfl
@[simp] theorem applyReset_phase (s : State) : (applyReset s).phase = .idle := rfl
@[simp] theorem applyReset_code (s : State) : (applyReset s).code = .ok := rfl
@[simp] theorem applyReset_err (s : State) : (applyReset s).err = false := rfl
@[simp] theorem applyReset_inputs (s : State) : (applyReset s).inputs = s.inputs := rfl
@[simp] theorem applyReset_responses (s : State) : (applyReset s).responses = s.responses := rfl
@[simp] theorem applyReset_freeCount (s : State) : (applyReset s).freeCount = s.freeCount := rfl
@[simp] theorem applyReset_compressions (s : State) : (applyReset s).compressions = s.compressions := rfl
@[simp] theorem applyReset_refusalMark (s : State) : (applyReset s).refusalMark = s.refusalMark := rfl
@[simp] theorem applyReset_partialAlign (s : State) : (applyReset s).partialAlign = s.partialAlign := rfl

/-! ### `mergeHead` -/

@[simp] theorem mergeHead_acc (rem : Nat) (b : Byte) (s : State) : (mergeHead rem b s).acc = s.acc := rfl
@[simp] theorem mergeHead_block (rem : Nat) (b : Byte) (s : State) :
    (mergeHead rem b s).block = orByte s.block s.bytePos.toNat (b >>> rem) := rfl
@[simp] theorem mergeHead_fillBits (rem : Nat) (b : Byte) (s : State) :
    (mergeHead rem b s).fillBits = s.fillBits := rfl
@[simp] theorem mergeHead_bytePos (rem : Nat) (b : Byte) (s : State) : (mergeHead rem b s).bytePos = s.bytePos := rfl
@[simp] theorem mergeHead_totalBits (rem : Nat) (b : Byte) (s : State) :
    (mergeHead rem b s).totalBits = s.totalBits := rfl
@[simp] theorem mergeHead_phase (rem : Nat) (b : Byte) (s : State) : (mergeHead rem b s).phase = s.phase := rfl
@[simp] theorem mergeHead_code (rem : Nat) (b : Byte) (s : State) : (mergeHead rem b s).code = s.code := rfl
@[simp] theorem mergeHead_err (rem : Nat) (b : Byte) (s : State) : (mergeHead rem b s).err = s.err := rfl
@[simp] theorem mergeHead_inputs (rem : Nat) (b : Byte) (s : State) : (mergeHead rem b s).inputs = s.inputs := rfl
@[simp] theorem mergeHead_responses (rem : Nat) (b : Byte) (s : State) :
    (mergeHead rem b s).responses = s.responses := rfl
@[simp] theorem mergeHead_freeCount (rem : Nat) (b : Byte) (s : State) :
    (mergeHead rem b s).freeCount = s.freeCount := rfl
@[simp] theorem mergeHead_compressions (rem : Nat) (b : Byte) (s : State) :
    (mergeHead rem b s).compressions = s.compressions := rfl
@[simp] theorem mergeHead_refusalMark (rem : Nat) (b : Byte) (s : State) :
    (mergeHead rem b s).refusalMark = s.refusalMark := rfl
@[simp] theorem mergeHead_partialAlign (rem : Nat) (b : Byte) (s : State) :
    (mergeHead rem b s).partialAlign = s.partialAlign := rfl

/-! ### `startByte` -/

@[simp] theorem startByte_acc (rem added : Nat) (b : Byte) (s : State) : (startByte rem added b s).acc = s.acc := rfl
@[simp] theorem startByte_block (rem added : Nat) (b : Byte) (s : State) :
    (startByte rem added b s).block = setByte s.block s.bytePos.toNat (b <<< (8 - rem)) := rfl
@[simp] theorem startByte_fillBits (rem added : Nat) (b : Byte) (s : State) :
    (startByte rem added b s).fillBits = s.fillBits + BitVec.ofNat 10 added := rfl
@[simp] theorem startByte_bytePos (rem added : Nat) (b : Byte) (s : State) :
    (startByte rem added b s).bytePos = s.bytePos := rfl
@[simp] theorem startByte_totalBits (rem added : Nat) (b : Byte) (s : State) :
    (startByte rem added b s).totalBits = s.totalBits := rfl
@[simp] theorem startByte_phase (rem added : Nat) (b : Byte) (s : State) :
    (startByte rem added b s).phase = s.phase := rfl
@[simp] theorem startByte_code (rem added : Nat) (b : Byte) (s : State) :
    (startByte rem added b s).code = s.code := rfl
@[simp] theorem startByte_err (rem added : Nat) (b : Byte) (s : State) : (startByte rem added b s).err = s.err := rfl
@[simp] theorem startByte_inputs (rem added : Nat) (b : Byte) (s : State) :
    (startByte rem added b s).inputs = s.inputs := rfl
@[simp] theorem startByte_responses (rem added : Nat) (b : Byte) (s : State) :
    (startByte rem added b s).responses = s.responses := rfl
@[simp] theorem startByte_freeCount (rem added : Nat) (b : Byte) (s : State) :
    (startByte rem added b s).freeCount = s.freeCount := rfl
@[simp] theorem startByte_compressions (rem added : Nat) (b : Byte) (s : State) :
    (startByte rem added b s).compressions = s.compressions := rfl
@[simp] theorem startByte_refusalMark (rem added : Nat) (b : Byte) (s : State) :
    (startByte rem added b s).refusalMark = s.refusalMark := rfl
@[simp] theorem startByte_partialAlign (rem added : Nat) (b : Byte) (s : State) :
    (startByte rem added b s).partialAlign = s.partialAlign := rfl

/-! ### `appendOneBit` -/

@[simp] theorem appendOneBit_acc (s : State) : (appendOneBit s).acc = s.acc := rfl
@[simp] theorem appendOneBit_block (s : State) :
    (appendOneBit s).block = orByte s.block s.bytePos.toNat (0x80#8 >>> (s.fillBits &&& 7).toNat) := rfl
@[simp] theorem appendOneBit_fillBits (s : State) : (appendOneBit s).fillBits = s.fillBits := rfl
@[simp] theorem appendOneBit_bytePos (s : State) : (appendOneBit s).bytePos = s.bytePos + 1 := rfl
@[simp] theorem appendOneBit_totalBits (s : State) : (appendOneBit s).totalBits = s.totalBits := rfl
@[simp] theorem appendOneBit_phase (s : State) : (appendOneBit s).phase = s.phase := rfl
@[simp] theorem appendOneBit_code (s : State) : (appendOneBit s).code = s.code := rfl
@[simp] theorem appendOneBit_err (s : State) : (appendOneBit s).err = s.err := rfl
@[simp] theorem appendOneBit_inputs (s : State) : (appendOneBit s).inputs = s.inputs := rfl
@[simp] theorem appendOneBit_responses (s : State) : (appendOneBit s).responses = s.responses := rfl
@[simp] theorem appendOneBit_freeCount (s : State) : (appendOneBit s).freeCount = s.freeCount := rfl
@[simp] theorem appendOneBit_compressions (s : State) : (appendOneBit s).compressions = s.compressions := rfl
@[simp] theorem appendOneBit_refusalMark (s : State) : (appendOneBit s).refusalMark = s.refusalMark := rfl
@[simp] theorem appendOneBit_partialAlign (s : State) : (appendOneBit s).partialAlign = s.partialAlign := rfl

/-! ### `sendFirst` -/

@[simp] theorem sendFirst_acc (bytes : List Byte) (s : State) : (sendFirst bytes s).acc = s.acc := rfl
@[simp] theorem sendFirst_block (bytes : List Byte) (s : State) : (sendFirst bytes s).block = s.block := rfl
@[simp] theorem sendFirst_fillBits (bytes : List Byte) (s : State) : (sendFirst bytes s).fillBits = s.fillBits := rfl
@[simp] theorem sendFirst_bytePos (bytes : List Byte) (s : State) : (sendFirst bytes s).bytePos = s.bytePos := rfl
@[simp] theorem sendFirst_totalBits (bytes : List Byte) (s : State) :
    (sendFirst bytes s).totalBits = s.totalBits := rfl
@[simp] theorem sendFirst_phase (bytes : List Byte) (s : State) : (sendFirst bytes s).phase = s.phase := rfl
@[simp] theorem sendFirst_code (bytes : List Byte) (s : State) : (sendFirst bytes s).code = s.code := rfl
@[simp] theorem sendFirst_err (bytes : List Byte) (s : State) : (sendFirst bytes s).err = s.err := rfl
@[simp] theorem sendFirst_inputs (bytes : List Byte) (s : State) :
    (sendFirst bytes s).inputs = .frame bytes :: s.inputs := rfl
@[simp] theorem sendFirst_responses (bytes : List Byte) (s : State) :
    (sendFirst bytes s).responses = s.responses := rfl
@[simp] theorem sendFirst_freeCount (bytes : List Byte) (s : State) :
    (sendFirst bytes s).freeCount = s.freeCount := rfl
@[simp] theorem sendFirst_compressions (bytes : List Byte) (s : State) :
    (sendFirst bytes s).compressions = s.compressions := rfl
@[simp] theorem sendFirst_refusalMark (bytes : List Byte) (s : State) :
    (sendFirst bytes s).refusalMark = s.refusalMark := rfl
@[simp] theorem sendFirst_partialAlign (bytes : List Byte) (s : State) :
    (sendFirst bytes s).partialAlign = s.partialAlign := rfl

end Sys2Proof.Machine
end

