-- ==== Sys2Proof/Laws/Block.lean ====
section
/-! SUPPORT. The bytes and bits of the block: what each write does to them, and when a block is the byte image of part
of a message. -/

namespace Sys2Proof.Machine

/-! ### Bits of a byte -/

/-- `FILLBITS & 7` is `FILLBITS mod 8`. -/
theorem toNat_and_seven (x : BitVec 10) : (x &&& 7).toNat = x.toNat % 8 := by
  rw [BitVec.toNat_and, show (7 : BitVec 10).toNat = 7 from rfl]
  exact Nat.and_two_pow_sub_one_eq_mod x.toNat 3

/-- Bit `r`, counted from the most significant, of a byte shifted right by `rem`. -/
theorem getLsbD_shiftRight_byte (b : Byte) {rem r : Nat} (hr : r < 8) :
    (b >>> rem).getLsbD (7 - r) = (decide (rem ≤ r) && b.getLsbD (7 - (r - rem))) := by
  rw [BitVec.getLsbD_ushiftRight]
  by_cases h : rem ≤ r
  · simp only [h, decide_true, Bool.true_and]
    congr 1
    omega
  · simp only [h, decide_false, Bool.false_and]
    exact BitVec.getLsbD_of_ge _ _ (by omega)

/-- Bit `r`, counted from the most significant, of a byte shifted left by `8 - rem`. -/
theorem getLsbD_shiftLeft_byte (b : Byte) {rem r : Nat} (hrem : rem ≤ 8) (hr : r < 8) :
    (b <<< (8 - rem)).getLsbD (7 - r) = (decide (r < rem) && b.getLsbD (7 - (r + (8 - rem)))) := by
  rw [BitVec.getLsbD_shiftLeft]
  by_cases h : r < rem
  · have h1 : 7 - r < 8 := by omega
    have h2 : ¬ 7 - r < 8 - rem := by omega
    simp only [h, h1, h2, decide_true, decide_false, Bool.not_false, Bool.true_and]
    congr 1
    omega
  · have h2 : 7 - r < 8 - rem := by omega
    simp [h, h2]

/-- Bit `k`, counted from the most significant, of the byte of eight bits. -/
theorem getLsbD_byteOfBits (f : Nat → Bool) {k : Nat} (hk : k < 8) : (byteOfBits f).getLsbD (7 - k) = f k := by
  unfold byteOfBits
  match k, hk with
  | 0, _ | 1, _ | 2, _ | 3, _ | 4, _ | 5, _ | 6, _ | 7, _ =>
    simp only [BitVec.getLsbD_append, BitVec.getLsbD_ofBool]
    simp

/-- Two bytes with the same bits are equal. -/
theorem byte_eq_of_bits {a b : Byte} (h : ∀ k, k < 8 → a.getLsbD (7 - k) = b.getLsbD (7 - k)) : a = b := by
  apply BitVec.eq_of_getLsbD_eq
  intro i hi
  have := h (7 - i) (by omega)
  rwa [show 7 - (7 - i) = i by omega] at this

/-! ### Bytes of a block -/

theorem get_setByte (blk : Block) (j : Nat) (b : Byte) (i : Fin 64) :
    (setByte blk j b).get i = if i.val = j then b else blk.get i := by
  unfold setByte
  split
  · simp only [Vector.get_eq_getElem, Vector.getElem_set, eq_comm]
  · rw [if_neg (by omega)]

theorem get_orByte (blk : Block) (j : Nat) (b : Byte) (i : Fin 64) :
    (orByte blk j b).get i = if i.val = j then blk.get i ||| b else blk.get i := by
  unfold orByte
  split
  · simp only [Vector.get_eq_getElem, Vector.getElem_set]
    split
    · next h => subst h; simp
    · next h => rw [if_neg (Ne.symm h)]
  · rw [if_neg (by omega)]

theorem get_zeroFill (blk : Block) (lo hi : Nat) (i : Fin 64) :
    (zeroFill blk lo hi).get i = if lo ≤ i.val ∧ i.val < hi then 0 else blk.get i := by
  simp [zeroFill, Vector.get_eq_getElem]

theorem get_writeLength (blk : Block) (T : BitVec 256) (i : Fin 64) :
    (writeLength blk T).get i = if 32 ≤ i.val then lengthByte T (i.val - 32) else blk.get i := by
  simp [writeLength, Vector.get_eq_getElem]

theorem block_ext {a b : Block} (h : ∀ i : Fin 64, a.get i = b.get i) : a = b := by
  apply Vector.ext
  intro i hi
  simpa [Vector.get_eq_getElem] using h ⟨i, hi⟩

/-! ### Bits of a block -/

theorem blockBit_eq (blk : Block) (i : Nat) (hi : i < 512) :
    blockBit blk i = (blk.get ⟨i / 8, by omega⟩).getLsbD (7 - i % 8) := by
  unfold blockBit
  rw [List.getD_eq_getElem?_getD, List.getElem?_eq_getElem (by simp; omega)]
  simp [Vector.get_eq_getElem]

theorem blockBit_setByte (blk : Block) (j : Nat) (b : Byte) {i : Nat} (hi : i < 512) :
    blockBit (setByte blk j b) i = if i / 8 = j then b.getLsbD (7 - i % 8) else blockBit blk i := by
  rw [blockBit_eq _ _ hi, blockBit_eq _ _ hi, get_setByte]
  split <;> rfl

theorem blockBit_orByte (blk : Block) (j : Nat) (b : Byte) {i : Nat} (hi : i < 512) :
    blockBit (orByte blk j b) i = (blockBit blk i || (decide (i / 8 = j) && b.getLsbD (7 - i % 8))) := by
  rw [blockBit_eq _ _ hi, blockBit_eq _ _ hi, get_orByte]
  split
  · next h => rw [BitVec.getLsbD_or, decide_eq_true (by exact h), Bool.true_and]
  · next h => rw [decide_eq_false (by exact h), Bool.false_and, Bool.or_false]

theorem blockBit_zeroFill (blk : Block) (lo hi : Nat) {i : Nat} (h512 : i < 512) :
    blockBit (zeroFill blk lo hi) i = (!(decide (lo ≤ i / 8) && decide (i / 8 < hi)) && blockBit blk i) := by
  rw [blockBit_eq _ _ h512, blockBit_eq _ _ h512, get_zeroFill]
  split
  · next h => simp [h]
  · next h =>
    have : (!(decide (lo ≤ i / 8) && decide (i / 8 < hi))) = true := by
      simp only [Bool.not_eq_true', Bool.and_eq_false_iff, decide_eq_false_iff_not]
      simp only at h
      omega
    rw [this, Bool.true_and]

theorem blockBit_writeLength (blk : Block) (T : BitVec 256) {i : Nat} (hi : i < 512) :
    blockBit (writeLength blk T) i = if 256 ≤ i then T.getLsbD (511 - i) else blockBit blk i := by
  rw [blockBit_eq _ _ hi, blockBit_eq _ _ hi, get_writeLength]
  by_cases h : 256 ≤ i
  · rw [if_pos (by simp only; omega), if_pos h]
    simp only [lengthByte, BitVec.getLsbD_extractLsb']
    rw [decide_eq_true (by omega), Bool.true_and]
    congr 1
    omega
  · rw [if_neg (by simp only; omega), if_neg h]

theorem block_eq_of_bits {a b : Block} (h : ∀ i, i < 512 → blockBit a i = blockBit b i) : a = b := by
  apply block_ext
  intro j
  apply byte_eq_of_bits
  intro k hk
  have := h (8 * j.val + k) (by omega)
  rw [blockBit_eq _ _ (by omega), blockBit_eq _ _ (by omega)] at this
  have e1 : (8 * j.val + k) / 8 = j.val := by omega
  have e2 : (8 * j.val + k) % 8 = k := by omega
  simpa only [e1, e2, Fin.eta] using this

theorem blockBit_messageBlock (M : List Bool) (q : Nat) {i : Nat} (hi : i < 512) :
    blockBit (messageBlock M q) i = M.getD (512 * q + i) false := by
  rw [blockBit_eq _ _ hi]
  simp only [messageBlock, Vector.get_eq_getElem, Vector.getElem_ofFn]
  rw [getLsbD_byteOfBits _ (by omega)]
  congr 1
  omega

/-- A block whose bits are bits `512q` to `512q + 511` of a message is its byte image `M_q`. -/
theorem eq_messageBlock {blk : Block} {M : List Bool} {q : Nat}
    (h : ∀ i, i < 512 → blockBit blk i = M.getD (512 * q + i) false) : blk = messageBlock M q :=
  block_eq_of_bits fun i hi => by rw [h i hi, blockBit_messageBlock _ _ hi]

/-! ### The running hash depends on whole blocks only -/

theorem messageBlock_append (M L : List Bool) {q : Nat} (h : 512 * q + 512 ≤ M.length) :
    messageBlock (M ++ L) q = messageBlock M q :=
  block_eq_of_bits fun i hi => by
    rw [blockBit_messageBlock _ _ hi, blockBit_messageBlock _ _ hi, List.getD_append _ _ _ _ (by omega)]

theorem hashBlocks_append (M L : List Bool) {p : Nat} (h : 512 * p ≤ M.length) :
    hashBlocks (M ++ L) p = hashBlocks M p := by
  induction p with
  | zero => rfl
  | succ p ih => simp only [hashBlocks]; rw [ih (by omega), messageBlock_append _ _ (by omega)]

end Sys2Proof.Machine
end

