-- ==== Sys2Proof/Laws/Absorb.lean ====
section
/-! SUPPORT. What `ABSORB` does, operation by operation: the registers it never touches, how far `FILLBITS` and
`BYTEPOS` move and how many COMPRESS run, and that each chunk appends its bits to the message in the buffer. -/

namespace Sys2Proof.Machine

/-! ### The chunk loop in terms of one operation -/

/-- A whole chunk is a residual of 8 bits. -/
theorem wholeChunk_eq_residual {rem : Nat} (hrem : rem < 8) (b : Byte) (s : State) :
    wholeChunk rem b s = residualBits rem 8 b s := by
  unfold wholeChunk residualBits
  rw [if_neg (by decide), if_neg (by omega), show 8 - (8 - rem) = rem by omega]

/-! ### Registers the chunks never touch -/

/-- The registers and fields that no part of the chunk loop writes. -/
structure SameControl (s t : State) : Prop where
  totalBits    : t.totalBits = s.totalBits
  phase        : t.phase = s.phase
  code         : t.code = s.code
  err          : t.err = s.err
  inputs       : t.inputs = s.inputs
  responses    : t.responses = s.responses
  freeCount    : t.freeCount = s.freeCount
  refusalMark  : t.refusalMark = s.refusalMark
  partialAlign : t.partialAlign = s.partialAlign

theorem SameControl.refl (s : State) : SameControl s s := ⟨rfl, rfl, rfl, rfl, rfl, rfl, rfl, rfl, rfl⟩

theorem SameControl.trans {s t u : State} (h : SameControl s t) (k : SameControl t u) : SameControl s u :=
  ⟨k.1.trans h.1, k.2.trans h.2, k.3.trans h.3, k.4.trans h.4, k.5.trans h.5, k.6.trans h.6, k.7.trans h.7,
    k.8.trans h.8, k.9.trans h.9⟩

/-- R150 on a full block. -/
theorem compressIfFull_full {s : State} (h : s.fillBits = 512) :
    compressIfFull s = { runCompress s with fillBits := 0, bytePos := 0 } := if_pos h

/-- R150 on a block that is not full. -/
theorem compressIfFull_notFull {s : State} (h : s.fillBits ≠ 512) : compressIfFull s = s := if_neg h

theorem compressIfFull_sameControl (s : State) : SameControl s (compressIfFull s) := by
  unfold compressIfFull
  split
  · exact ⟨rfl, rfl, rfl, rfl, rfl, rfl, rfl, rfl, rfl⟩
  · exact SameControl.refl s

theorem residual_sameControl (rem left : Nat) (b : Byte) (s : State) : SameControl s (residualBits rem left b s) := by
  unfold residualBits
  split
  · exact SameControl.refl s
  · split
    · exact ⟨rfl, rfl, rfl, rfl, rfl, rfl, rfl, rfl, rfl⟩
    · have h := compressIfFull_sameControl
        { mergeHead rem b s with
          bytePos := s.bytePos + 1, fillBits := s.fillBits + BitVec.ofNat 10 (8 - rem) }
      exact ⟨h.1, h.2, h.3, h.4, h.5, h.6, h.7, h.8, h.9⟩

theorem wholeChunk_sameControl (rem : Nat) (b : Byte) (s : State) : SameControl s (wholeChunk rem b s) := by
  have h := compressIfFull_sameControl
    { mergeHead rem b s with
      bytePos := s.bytePos + 1, fillBits := s.fillBits + BitVec.ofNat 10 (8 - rem) }
  exact ⟨h.1, h.2, h.3, h.4, h.5, h.6, h.7, h.8, h.9⟩

theorem wholeChunks_sameControl (rem : Nat) (c : Nat → Byte) (m : Nat) (s : State) :
    SameControl s (wholeChunks rem c m s) := by
  induction m with
  | zero => exact SameControl.refl s
  | succ m ih => exact ih.trans (wholeChunk_sameControl _ _ _)

/-- What `ABSORB` writes beside the buffer and `ACC`: the tally only. -/
theorem absorbBits_sameControl (align : PartialAlign) (n : BitCount) (data : List Byte) (s : State) :
    SameControl { s with totalBits := tally s.totalBits n } (absorbBits align n data s) :=
  (wholeChunks_sameControl _ _ _ _).trans (residual_sameControl _ _ _ _)

/-! ### How far the fill mark moves -/

/-- The buffer's counters agree: R36 (a) and (b). -/
structure CountersAgree (s : State) : Prop where
  fill_lt  : s.fillBits.toNat < 512
  byte_pos : s.bytePos.toNat = s.fillBits.toNat / 8

/-- The case split of the residual step (R149, R150) at a fill mark that agrees with `BYTEPOS`: the bits fit in the
current byte, or they finish it within the block, or they finish the block. -/
theorem residual_cases {s : State} (h : CountersAgree s) {left : Nat} (hpos : 0 < left) (hle : left ≤ 8) (b : Byte) :
    let rem := s.fillBits.toNat % 8
    let pos := s.bytePos.toNat
    let t := residualBits rem left b s
    (rem + left < 8 ∧ t.acc = s.acc ∧ t.compressions = s.compressions ∧
      t.fillBits.toNat = s.fillBits.toNat + left ∧ t.bytePos.toNat = pos ∧
      t.block = orByte s.block pos (b >>> rem)) ∨
    (8 ≤ rem + left ∧ pos < 63 ∧ t.acc = s.acc ∧ t.compressions = s.compressions ∧
      t.fillBits.toNat = s.fillBits.toNat + left ∧ t.bytePos.toNat = pos + 1 ∧
      t.block = setByte (orByte s.block pos (b >>> rem)) (pos + 1) (b <<< (8 - rem))) ∨
    (8 ≤ rem + left ∧ pos = 63 ∧ t.acc = compress s.acc (orByte s.block pos (b >>> rem)) ∧
      t.compressions = s.compressions + 1 ∧
      t.fillBits.toNat = s.fillBits.toNat + left - 512 ∧ t.bytePos.toNat = 0 ∧
      t.block = setByte (orByte s.block pos (b >>> rem)) 0 (b <<< (8 - rem))) := by
  intro rem pos t
  have hf := h.fill_lt
  have hp := h.byte_pos
  have hrem : rem < 8 := Nat.mod_lt _ (by decide)
  have hfill : s.fillBits.toNat = 8 * pos + rem := by omega
  by_cases hfit : rem + left < 8
  · left
    have ht : t = { mergeHead rem b s with fillBits := s.fillBits + BitVec.ofNat 10 left } := by
      simp only [t, residualBits]; rw [if_neg (by omega), if_pos hfit]
    rw [ht]
    refine ⟨hfit, rfl, rfl, ?_, rfl, rfl⟩
    simp only [BitVec.toNat_add, BitVec.toNat_ofNat]
    omega
  · right
    have hnext : (s.bytePos + 1).toNat = pos + 1 := by
      rw [BitVec.toNat_add, show (1 : BitVec 7).toNat = 1 from rfl]
      omega
    have hfull : (s.fillBits + BitVec.ofNat 10 (8 - rem)).toNat = 8 * (pos + 1) := by
      rw [BitVec.toNat_add, BitVec.toNat_ofNat]
      omega
    have h512 : (s.fillBits + BitVec.ofNat 10 (8 - rem) = 512) ↔ pos = 63 := by
      rw [← BitVec.toNat_inj, hfull, show (512 : BitVec 10).toNat = 512 from rfl]
      omega
    have ht : t = startByte rem (left - (8 - rem)) b (finishByte rem (mergeHead rem b s)) := by
      simp only [t, residualBits]; rw [if_neg (by omega), if_neg hfit]
    by_cases hlast : pos = 63
    · right
      have hfin : finishByte rem (mergeHead rem b s)
          = { runCompress (mergeHead rem b s) with fillBits := 0, bytePos := 0 } := by
        exact compressIfFull_full (h512.mpr hlast)
      rw [ht, hfin]
      refine ⟨by omega, hlast, rfl, rfl, ?_, rfl, rfl⟩
      simp only [startByte_fillBits, BitVec.toNat_add, BitVec.toNat_ofNat]
      rw [show (0 : BitVec 10).toNat = 0 from rfl]
      omega
    · left
      have hfin : finishByte rem (mergeHead rem b s)
          = { mergeHead rem b s with
              bytePos := s.bytePos + 1, fillBits := s.fillBits + BitVec.ofNat 10 (8 - rem) } := by
        exact compressIfFull_notFull fun hc => hlast (h512.mp hc)
      rw [ht, hfin]
      refine ⟨by omega, by omega, rfl, rfl, ?_, ?_, ?_⟩
      · simp only [startByte_fillBits, BitVec.toNat_add, BitVec.toNat_ofNat] at *
        omega
      · exact hnext
      · simp only [startByte_block, mergeHead_block]
        rw [hnext]

/-- How the residual step moves the counters (R149, R150, R154). -/
theorem residual_counters {s : State} (h : CountersAgree s) {left : Nat} (hle : left ≤ 8) (b : Byte) :
    CountersAgree (residualBits (s.fillBits.toNat % 8) left b s) ∧
    (residualBits (s.fillBits.toNat % 8) left b s).fillBits.toNat = (s.fillBits.toNat + left) % 512 ∧
    (residualBits (s.fillBits.toNat % 8) left b s).compressions
      = s.compressions + (s.fillBits.toNat + left) / 512 := by
  have hf := h.fill_lt
  have hp := h.byte_pos
  rcases Nat.eq_zero_or_pos left with rfl | hpos
  · have : residualBits (s.fillBits.toNat % 8) 0 b s = s := if_pos rfl
    rw [this]
    exact ⟨h, by omega, by omega⟩
  · rcases residual_cases h hpos hle b with ⟨_, _, hc, hf', hp', _⟩ | ⟨_, _, _, hc, hf', hp', _⟩ | ⟨_, _, _, hc, hf', hp', _⟩
    · exact ⟨⟨by omega, by omega⟩, by omega, by omega⟩
    · exact ⟨⟨by omega, by omega⟩, by omega, by omega⟩
    · exact ⟨⟨by omega, by omega⟩, by omega, by omega⟩

/-- How `m` whole chunks move the counters; the offset `rem` in the byte stays (R148). -/
theorem wholeChunks_counters {s : State} (h : CountersAgree s) (c : Nat → Byte) (m : Nat) :
    CountersAgree (wholeChunks (s.fillBits.toNat % 8) c m s) ∧
    (wholeChunks (s.fillBits.toNat % 8) c m s).fillBits.toNat = (s.fillBits.toNat + 8 * m) % 512 ∧
    (wholeChunks (s.fillBits.toNat % 8) c m s).compressions
      = s.compressions + (s.fillBits.toNat + 8 * m) / 512 := by
  induction m with
  | zero =>
    have hf := h.fill_lt
    exact ⟨h, by simp only [wholeChunks]; omega, by simp only [wholeChunks]; omega⟩
  | succ m ih =>
    obtain ⟨hc, hf, hn⟩ := ih
    have hrem : (wholeChunks (s.fillBits.toNat % 8) c m s).fillBits.toNat % 8 = s.fillBits.toNat % 8 := by
      rw [hf]; omega
    have hlt : s.fillBits.toNat % 8 < 8 := Nat.mod_lt _ (by decide)
    have hr := residual_counters hc (Nat.le_refl 8) (c m)
    rw [hrem, ← wholeChunk_eq_residual hlt] at hr
    simp only [wholeChunks]
    exact ⟨hr.1, by rw [hr.2.1, hf]; omega, by rw [hr.2.2, hf, hn]; omega⟩

/-- The bits left after the whole chunks: at most 8, and none only if there are none at all (R148, R149). -/
theorem left_bounds (n : BitCount) :
    n.toNat - 8 * wholeCount n ≤ 8 ∧ (n.toNat - 8 * wholeCount n = 0 ↔ n.toNat = 0) ∧
    8 * wholeCount n ≤ n.toNat ∧ (0 < n.toNat → wholeCount n < dataLength n) := by
  unfold wholeCount dataLength
  omega

/-- How `ABSORB` moves the counters (R152, R154). -/
theorem absorbBits_counters {s : State} (h : CountersAgree s) (align : PartialAlign) (n : BitCount)
    (data : List Byte) :
    CountersAgree (absorbBits align n data s) ∧
    (absorbBits align n data s).fillBits.toNat = (s.fillBits.toNat + n.toNat) % 512 ∧
    (absorbBits align n data s).compressions = s.compressions + (s.fillBits.toNat + n.toNat) / 512 := by
  have h' : CountersAgree { s with totalBits := tally s.totalBits n } := ⟨h.1, h.2⟩
  obtain ⟨hc, hf, hn⟩ := wholeChunks_counters h' (chunk align n data) (wholeCount n)
  obtain ⟨hle, -, hle', -⟩ := left_bounds n
  have hr := residual_counters hc hle (chunk align n data (wholeCount n))
  unfold absorbBits
  simp only [toNat_and_seven] at *
  rw [hf, show (s.fillBits.toNat + 8 * wholeCount n) % 512 % 8 = s.fillBits.toNat % 8 by omega] at hr
  exact ⟨hr.1, by rw [hr.2.1]; omega, by rw [hr.2.2, hn]; omega⟩

end Sys2Proof.Machine
end

