-- ==== Sys2Proof/Laws/Decode.lean ====
section
/-! SUPPORT. The byte orders of the decoder and the encoder are inverse to each other, and what the decoder does on
each kind of command word. -/

namespace Sys2Proof

/-! ### Words and their bytes -/

/-- The upper and the lower part of a bit vector put together again. -/
theorem extract_append_extract (w : BitVec n) (lo k m : Nat) :
    w.extractLsb' (lo + m) k ++ w.extractLsb' lo m = w.extractLsb' lo (k + m) := by
  apply BitVec.eq_of_getLsbD_eq
  intro i hi
  simp only [BitVec.getLsbD_append, BitVec.getLsbD_extractLsb']
  by_cases h : i < m
  · simp [h, hi]
  · have h1 : i - m < k := by omega
    have h2 : lo + m + (i - m) = lo + i := by omega
    simp [h, hi, h1, h2]

theorem be32_be32Bytes (w : CmdWord) :
    be32 (w.extractLsb' 24 8) (w.extractLsb' 16 8) (w.extractLsb' 8 8) (w.extractLsb' 0 8) = w := by
  unfold be32
  rw [extract_append_extract w 16 8 8, extract_append_extract w 8 16 8, extract_append_extract w 0 24 8]
  exact BitVec.extractLsb'_eq_self

theorem be64_be64Bytes (w : Word) :
    be64 (w.extractLsb' 56 8) (w.extractLsb' 48 8) (w.extractLsb' 40 8) (w.extractLsb' 32 8) (w.extractLsb' 24 8)
      (w.extractLsb' 16 8) (w.extractLsb' 8 8) (w.extractLsb' 0 8) = w := by
  unfold be64
  rw [extract_append_extract w 48 8 8, extract_append_extract w 40 16 8, extract_append_extract w 32 24 8,
    extract_append_extract w 24 32 8, extract_append_extract w 16 40 8, extract_append_extract w 8 48 8,
    extract_append_extract w 0 56 8]
  exact BitVec.extractLsb'_eq_self

/-- The low part of two bit vectors put together. -/
theorem extract_low (a : BitVec n) (b : BitVec m) : (a ++ b).extractLsb' 0 m = b := by
  apply BitVec.eq_of_getLsbD_eq
  intro i hi
  simp only [BitVec.getLsbD_extractLsb', BitVec.getLsbD_append, hi, decide_true, Bool.true_and, Nat.zero_add, if_true]

/-- A field above the low part of two bit vectors put together. -/
theorem extract_high (a : BitVec n) (b : BitVec m) (lo k : Nat) (h : m ≤ lo) :
    (a ++ b).extractLsb' lo k = a.extractLsb' (lo - m) k := by
  apply BitVec.eq_of_getLsbD_eq
  intro i hi
  have h1 : ¬ lo + i < m := by omega
  have h2 : lo + i - m = lo - m + i := by omega
  simp only [BitVec.getLsbD_extractLsb', BitVec.getLsbD_append, h1, if_false, h2]

theorem be32Bytes_be32 (b0 b1 b2 b3 : Byte) : be32Bytes (be32 b0 b1 b2 b3) = [b0, b1, b2, b3] := by
  unfold be32Bytes be32
  congr 1
  · rw [extract_high _ _ _ _ (by decide), extract_high _ _ _ _ (by decide), extract_high _ _ _ _ (by decide)]
    exact BitVec.extractLsb'_eq_self
  congr 1
  · rw [extract_high _ _ _ _ (by decide), extract_high _ _ _ _ (by decide)]
    exact extract_low _ _
  congr 1
  · rw [extract_high _ _ _ _ (by decide)]
    exact extract_low _ _
  congr 1
  exact extract_low _ _

theorem be64Bytes_be64 (b0 b1 b2 b3 b4 b5 b6 b7 : Byte) :
    be64Bytes (be64 b0 b1 b2 b3 b4 b5 b6 b7) = [b0, b1, b2, b3, b4, b5, b6, b7] := by
  unfold be64Bytes be64
  congr 1
  · rw [extract_high _ _ _ _ (by decide), extract_high _ _ _ _ (by decide), extract_high _ _ _ _ (by decide),
      extract_high _ _ _ _ (by decide), extract_high _ _ _ _ (by decide), extract_high _ _ _ _ (by decide),
      extract_high _ _ _ _ (by decide)]
    exact BitVec.extractLsb'_eq_self
  congr 1
  · rw [extract_high _ _ _ _ (by decide), extract_high _ _ _ _ (by decide), extract_high _ _ _ _ (by decide),
      extract_high _ _ _ _ (by decide), extract_high _ _ _ _ (by decide), extract_high _ _ _ _ (by decide)]
    exact extract_low _ _
  congr 1
  · rw [extract_high _ _ _ _ (by decide), extract_high _ _ _ _ (by decide), extract_high _ _ _ _ (by decide),
      extract_high _ _ _ _ (by decide), extract_high _ _ _ _ (by decide)]
    exact extract_low _ _
  congr 1
  · rw [extract_high _ _ _ _ (by decide), extract_high _ _ _ _ (by decide), extract_high _ _ _ _ (by decide),
      extract_high _ _ _ _ (by decide)]
    exact extract_low _ _
  congr 1
  · rw [extract_high _ _ _ _ (by decide), extract_high _ _ _ _ (by decide), extract_high _ _ _ _ (by decide)]
    exact extract_low _ _
  congr 1
  · rw [extract_high _ _ _ _ (by decide), extract_high _ _ _ _ (by decide)]
    exact extract_low _ _
  congr 1
  · rw [extract_high _ _ _ _ (by decide)]
    exact extract_low _ _
  congr 1
  exact extract_low _ _

@[simp] theorem length_be32Bytes (w : CmdWord) : (be32Bytes w).length = 4 := rfl
@[simp] theorem length_be64Bytes (w : Word) : (be64Bytes w).length = 8 := rfl

/-! ### Command words -/

/-- `OP` and `RSV` as numbers (R70). -/
theorem opField_toNat (w : CmdWord) : (opField w).toNat = w.toNat % 256 := by simp [opField]

theorem rsvField_toNat (w : CmdWord) : (rsvField w).toNat = w.toNat / 256 := by
  have := w.isLt
  simp only [rsvField, BitVec.extractLsb'_toNat, Nat.shiftRight_eq_div_pow]
  omega

/-- The decoder's verdict on a word, by its fields (R76). -/
theorem decodeCmd_eq (w : CmdWord) :
    decodeCmd w = if w.toNat = 1 then some .init else if w.toNat = 2 then some .absorb
      else if w.toNat = 3 then some .finalize else none := by
  have hop : ∀ v : Byte, opField w = v ↔ w.toNat % 256 = v.toNat := fun v => by
    rw [← BitVec.toNat_inj, opField_toNat]
  have hrsv : rsvField w ≠ 0 ↔ w.toNat / 256 ≠ 0 := by
    rw [Ne, ← BitVec.toNat_inj, rsvField_toNat]; rfl
  unfold decodeCmd
  simp only [hop, hrsv, show (0x01 : Byte).toNat = 1 from rfl, show (0x02 : Byte).toNat = 2 from rfl,
    show (0x03 : Byte).toNat = 3 from rfl]
  by_cases h : w.toNat / 256 = 0
  · rw [if_neg (not_not.mpr h), show w.toNat % 256 = w.toNat by omega]
  · rw [if_pos h, if_neg (by omega), if_neg (by omega), if_neg (by omega)]

theorem isCommandWord_iff (w : CmdWord) : isCommandWord w = true ↔ w.toNat = 1 ∨ w.toNat = 2 ∨ w.toNat = 3 := by
  simp only [isCommandWord, Bool.or_eq_true, beq_iff_eq, ← BitVec.toNat_inj, or_assoc]
  rfl

/-- The decoder on a stream that starts with the bytes of a word (R76). -/
theorem decode_be32Bytes (w : CmdWord) (rest : List Byte) :
    decode (be32Bytes w ++ rest) = match decodeCmd w with
      | some .init => .ok (.init, rest)
      | some .absorb => decodeAbsorb rest
      | some .finalize => .ok (.finalize, rest)
      | none => .ok (.illegal w, rest) := by
  simp only [be32Bytes, List.cons_append, List.nil_append, decode, be32_be32Bytes] <;> rfl

/-- The operand decoder on the bytes of a bit count and enough data (R71, R72). -/
theorem decodeAbsorb_be64Bytes (n : BitCount) (data rest : List Byte) (h : data.length = dataLength n) :
    decodeAbsorb (be64Bytes n ++ (data ++ rest)) = .ok (.absorb n data, rest) := by
  simp only [be64Bytes, List.cons_append, List.nil_append, decodeAbsorb, be64_be64Bytes]
  rw [if_neg (by simp; omega), ← h, List.take_left, List.drop_left]

/-- What the operand decoder accepts (R71, R72). -/
theorem decodeAbsorb_cases {bytes rest : List Byte} {i : Instr} (h : decodeAbsorb bytes = .ok (i, rest)) :
    ∃ n data, i = .absorb n data ∧ data.length = dataLength n ∧ bytes = be64Bytes n ++ (data ++ rest) := by
  match bytes, h with
  | c0 :: c1 :: c2 :: c3 :: c4 :: c5 :: c6 :: c7 :: tail, h =>
    simp only [decodeAbsorb] at h
    split at h
    · cases h
    · next hlen =>
      cases h
      refine ⟨_, _, rfl, ?_, ?_⟩
      · rw [List.length_take]; omega
      · rw [be64Bytes_be64, List.take_append_drop]; rfl
  | [], h | [_], h | [_, _], h | [_, _, _], h | [_, _, _, _], h | [_, _, _, _, _], h | [_, _, _, _, _, _], h
  | [_, _, _, _, _, _, _], h => cases h

end Sys2Proof
end

