-- ==== Sys2Proof/Laws/Step.lean ====
section
/-! SUPPORT. What each meaning can answer, what a step can do, and what a decoded instruction can be: said once, for
later proofs to cite instead of unfolding the definitions. -/

namespace Sys2Proof.Machine

/-! ### The meanings -/

theorem exec_init (s : State) :
    exec .init s = .next (respondOk none { zeroHashState s with phase := .active }) := rfl

/-- A well-formed `ABSORB` answers a next state. -/
theorem exec_absorb {n : BitCount} {data : List Byte} (h : data.length = dataLength n) (s : State) :
    exec (.absorb n data) s = .next (absorbCommand s.partialAlign n data s) := by
  show execAbsorb n data s = _
  unfold execAbsorb
  rw [if_neg (by omega), if_neg (by omega)]

/-- An `ABSORB` term with the wrong number of bytes is refused. -/
theorem exec_absorb_malformed {n : BitCount} {data : List Byte} (h : data.length ≠ dataLength n) (s : State) :
    exec (.absorb n data) s
      = .refused (.malformedFrame (if data.length < dataLength n then .cutShort else .excessBytes)) := by
  show execAbsorb n data s = _
  unfold execAbsorb
  by_cases hlt : data.length < dataLength n
  · rw [if_pos hlt, if_pos hlt]
  · rw [if_neg hlt, if_pos (by omega), if_neg hlt]

/-- An `ABSORB` that answers a next state is well-formed. -/
theorem exec_absorb_next {n : BitCount} {data : List Byte} {s t : State} (h : exec (.absorb n data) s = .next t) :
    data.length = dataLength n ∧ t = absorbCommand s.partialAlign n data s := by
  by_cases hl : data.length = dataLength n
  · rw [exec_absorb hl] at h
    exact ⟨hl, (Host.Outcome.next.inj h).symm⟩
  · rw [exec_absorb_malformed hl] at h
    exact Host.Outcome.noConfusion rfl rfl rfl (heq_of_eq h)

theorem exec_finalize (s : State) : exec .finalize s = .next (finalizeCommand s) := rfl

theorem exec_compress (s : State) : exec .compress s = .next (runCompress s) := rfl

theorem exec_illegal (w : CmdWord) (s : State) :
    exec (.illegal w) s = .next (raiseError .errIllegalCommand s) := rfl

/-! ### Commands by phase -/

theorem absorbCommand_active {s : State} (h : s.phase = .active) (align : PartialAlign) (n : BitCount)
    (data : List Byte) : absorbCommand align n data s = respondOk none (absorbBits align n data s) := by
  unfold absorbCommand; rw [h]

theorem absorbCommand_inactive {s : State} (h : s.phase ≠ .active) (align : PartialAlign) (n : BitCount)
    (data : List Byte) : absorbCommand align n data s = raiseError .errInvalidState s := by
  unfold absorbCommand
  cases hp : s.phase with
  | active => exact absurd hp h
  | idle => rfl
  | finalized => rfl

theorem finalizeCommand_active {s : State} (h : s.phase = .active) :
    finalizeCommand s = respondOk (some (digestBytes (padAndCompress s).acc))
      { unspecifyBuffer (padAndCompress s) with phase := .finalized } := by
  unfold finalizeCommand; rw [h]

theorem finalizeCommand_inactive {s : State} (h : s.phase ≠ .active) :
    finalizeCommand s = raiseError .errInvalidState s := by
  unfold finalizeCommand
  cases hp : s.phase with
  | active => exact absurd hp h
  | idle => rfl
  | finalized => rfl

/-- What the padding and the last COMPRESS leave alone (R170). -/
theorem padAndCompress_sameControl (s : State) : SameControl s (padAndCompress s) := by
  unfold padAndCompress makeRoom
  split
  · exact ⟨rfl, rfl, rfl, rfl, rfl, rfl, rfl, rfl, rfl⟩
  · exact ⟨rfl, rfl, rfl, rfl, rfl, rfl, rfl, rfl, rfl⟩

/-! ### Decoded instructions -/

/-- An instruction the decoder gives, with the bytes it leaves: a well-formed host command. -/
theorem decode_cases {bytes rest : List Byte} {i : Instr} (h : decode bytes = .ok (i, rest)) :
    i.wf = true ∧ isHostCommand i = true ∧ ∃ frame, encode i = some frame ∧ bytes = frame ++ rest := by
  match bytes, h with
  | b0 :: b1 :: b2 :: b3 :: tail, h =>
    have hw : be32Bytes (be32 b0 b1 b2 b3) = [b0, b1, b2, b3] := be32Bytes_be32 b0 b1 b2 b3
    have hd := decode_be32Bytes (be32 b0 b1 b2 b3) tail
    rw [hw] at hd
    simp only [List.cons_append, List.nil_append] at hd
    rw [hd, decodeCmd_eq] at h
    have hwd : ∀ c : CmdWord, (be32 b0 b1 b2 b3).toNat = c.toNat → be32Bytes c = [b0, b1, b2, b3] := fun c hc => by
      rw [← BitVec.toNat_inj.mp hc, hw]
    by_cases h1 : (be32 b0 b1 b2 b3).toNat = 1
    · simp only [h1, if_true] at h
      cases h
      refine ⟨rfl, rfl, [b0, b1, b2, b3], ?_, rfl⟩
      exact congrArg (fun f => some (f ++ [])) (hwd 0x00000001 h1)
    by_cases h2 : (be32 b0 b1 b2 b3).toNat = 2
    · have he := hwd 0x00000002 h2
      rw [if_neg h1, if_pos h2] at h
      simp only at h
      obtain ⟨n, data, rfl, hlen, rfl⟩ := decodeAbsorb_cases h
      refine ⟨by simpa [Instr.wf] using hlen, rfl, be32Bytes 0x00000002 ++ (be64Bytes n ++ data), rfl, ?_⟩
      rw [he, List.append_assoc, List.append_assoc]
      rfl
    by_cases h3 : (be32 b0 b1 b2 b3).toNat = 3
    · rw [if_neg h1, if_neg h2, if_pos h3] at h
      cases h
      refine ⟨rfl, rfl, [b0, b1, b2, b3], ?_, rfl⟩
      exact congrArg (fun f => some (f ++ [])) (hwd 0x00000003 h3)
    · rw [if_neg h1, if_neg h2, if_neg h3] at h
      cases h
      refine ⟨?_, rfl, [b0, b1, b2, b3], ?_, rfl⟩
      · simp only [Instr.wf, Bool.not_eq_true', ← Bool.not_eq_true, isCommandWord_iff]
        omega
      · simp [encode, cmdWord, operandBytes, hw]
  | [], h | [_], h | [_, _], h | [_, _, _], h => cases h

/-- A frame decodes exactly when its bytes do with none left over. -/
theorem decodeFrame_ok {frame : List Byte} {i : Instr} : decodeFrame frame = .ok i ↔ decode frame = .ok (i, []) := by
  unfold decodeFrame
  constructor
  · intro h
    split at h
    · next h' => cases h; exact h'
    · cases h
    · cases h
  · intro h; rw [h]

/-! ### The step -/

/-- What a step can do: wait, take a reset, perform the instruction of the oldest frame, refuse that frame. -/
theorem step_cases (s : State) :
    (s.inputs = [] ∧ step s = .next s) ∨
    (∃ rest, s.inputs = .reset :: rest ∧ step s = .next (applyReset { s with inputs := rest })) ∨
    (∃ frame rest i, s.inputs = .frame frame :: rest ∧ decodeFrame frame = .ok i ∧
      step s = exec i { s with inputs := rest }) ∨
    (∃ frame rest why, s.inputs = .frame frame :: rest ∧ decodeFrame frame = .error why ∧
      step s = .refused (.malformedFrame why)) := by
  unfold step fetch
  match hin : s.inputs with
  | [] => exact .inl ⟨rfl, rfl⟩
  | .reset :: rest => exact .inr (.inl ⟨rest, rfl, rfl⟩)
  | .frame frame :: rest =>
    cases hd : decodeFrame frame with
    | ok i => exact .inr (.inr (.inl ⟨frame, rest, i, rfl, hd, by simp only [hd]⟩))
    | error why => exact .inr (.inr (.inr ⟨frame, rest, why, rfl, hd, by simp only [hd]⟩))

end Sys2Proof.Machine
end

