-- ==== Sys2Proof/Laws/Aside.lean ====
section
/-! SUPPORT. What the operations on the HashState never look at: the parameter and the responses returned so far.
Replacing both before an operation is replacing both after it. -/

namespace Sys2Proof.Machine

/-- A state with another parameter and other responses. -/
def State.aside (a : PartialAlign) (rs : List Response) (s : State) : State :=
  { s with partialAlign := a, responses := rs }

/-! ### What it changes -/

@[simp] theorem aside_acc (a : PartialAlign) (rs : List Response) (s : State) : (s.aside a rs).acc = s.acc := rfl
@[simp] theorem aside_block (a : PartialAlign) (rs : List Response) (s : State) : (s.aside a rs).block = s.block := rfl
@[simp] theorem aside_fillBits (a : PartialAlign) (rs : List Response) (s : State) :
    (s.aside a rs).fillBits = s.fillBits := rfl
@[simp] theorem aside_bytePos (a : PartialAlign) (rs : List Response) (s : State) :
    (s.aside a rs).bytePos = s.bytePos := rfl
@[simp] theorem aside_totalBits (a : PartialAlign) (rs : List Response) (s : State) :
    (s.aside a rs).totalBits = s.totalBits := rfl
@[simp] theorem aside_phase (a : PartialAlign) (rs : List Response) (s : State) : (s.aside a rs).phase = s.phase := rfl
@[simp] theorem aside_code (a : PartialAlign) (rs : List Response) (s : State) : (s.aside a rs).code = s.code := rfl
@[simp] theorem aside_err (a : PartialAlign) (rs : List Response) (s : State) : (s.aside a rs).err = s.err := rfl
@[simp] theorem aside_partialAlign (a : PartialAlign) (rs : List Response) (s : State) :
    (s.aside a rs).partialAlign = a := rfl
@[simp] theorem aside_inputs (a : PartialAlign) (rs : List Response) (s : State) :
    (s.aside a rs).inputs = s.inputs := rfl
@[simp] theorem aside_responses (a : PartialAlign) (rs : List Response) (s : State) : (s.aside a rs).responses = rs :=
  rfl
@[simp] theorem aside_freeCount (a : PartialAlign) (rs : List Response) (s : State) :
    (s.aside a rs).freeCount = s.freeCount := rfl
@[simp] theorem aside_compressions (a : PartialAlign) (rs : List Response) (s : State) :
    (s.aside a rs).compressions = s.compressions := rfl
@[simp] theorem aside_refusalMark (a : PartialAlign) (rs : List Response) (s : State) :
    (s.aside a rs).refusalMark = s.refusalMark := rfl

/-! ### What the operations make of it -/

theorem compressIfFull_aside (a : PartialAlign) (rs : List Response) (s : State) :
    compressIfFull (s.aside a rs) = (compressIfFull s).aside a rs := by
  unfold compressIfFull
  rw [aside_fillBits]
  split <;> rfl

theorem finishByte_aside (a : PartialAlign) (rs : List Response) (rem : Nat) (s : State) :
    finishByte rem (s.aside a rs) = (finishByte rem s).aside a rs :=
  compressIfFull_aside a rs { s with bytePos := s.bytePos + 1, fillBits := s.fillBits + BitVec.ofNat 10 (8 - rem) }

theorem wholeChunk_aside (a : PartialAlign) (rs : List Response) (rem : Nat) (b : Byte) (s : State) :
    wholeChunk rem b (s.aside a rs) = (wholeChunk rem b s).aside a rs :=
  congrArg (startByte rem rem b) (finishByte_aside a rs rem (mergeHead rem b s))

theorem wholeChunks_aside (a : PartialAlign) (rs : List Response) (rem : Nat) (c : Nat → Byte) (m : Nat) (s : State) :
    wholeChunks rem c m (s.aside a rs) = (wholeChunks rem c m s).aside a rs := by
  induction m with
  | zero => rfl
  | succ m ih => simp only [wholeChunks]; rw [ih, wholeChunk_aside]

theorem residualBits_aside (a : PartialAlign) (rs : List Response) (rem left : Nat) (b : Byte) (s : State) :
    residualBits rem left b (s.aside a rs) = (residualBits rem left b s).aside a rs := by
  unfold residualBits
  split
  · rfl
  · split
    · rfl
    · exact congrArg (startByte rem _ b) (finishByte_aside a rs rem (mergeHead rem b s))

/-- The bits of an `ABSORB`, its alignment given, on another parameter and other responses. -/
theorem absorbBits_aside (a : PartialAlign) (rs : List Response) (align : PartialAlign) (n : BitCount)
    (data : List Byte) (s : State) :
    absorbBits align n data (s.aside a rs) = (absorbBits align n data s).aside a rs := by
  unfold absorbBits
  exact (congrArg _ (wholeChunks_aside a rs _ _ _ { s with totalBits := tally s.totalBits n })).trans
    (residualBits_aside a rs _ _ _ _)

/-- The padding and its COMPRESS on another parameter and other responses. -/
theorem padAndCompress_aside (a : PartialAlign) (rs : List Response) (s : State) :
    padAndCompress (s.aside a rs) = (padAndCompress s).aside a rs := by
  unfold padAndCompress makeRoom
  rw [show (appendOneBit (s.aside a rs)).bytePos = (appendOneBit s).bytePos from rfl]
  split <;> rfl

end Sys2Proof.Machine
end

