-- ==== Sys2Proof/Laws/MessageLaw.lean ====
section
/-! SUPPORT. The bits an `ABSORB` appends: each chunk of the loop appends its bits to the message the buffer holds,
whatever accumulator the message started from. -/

namespace Sys2Proof.Machine

/-! ### Chunks and command bits -/

/-- The first `left` bits of a byte, first bit most significant. -/
def headBits (left : Nat) (b : Byte) : List Bool := (List.range left).map fun j => b.getLsbD (7 - j)

@[simp] theorem length_headBits (left : Nat) (b : Byte) : (headBits left b).length = left := by simp [headBits]

theorem getD_headBits {left j : Nat} (b : Byte) (h : j < left) :
    (headBits left b).getD j false = b.getLsbD (7 - j) := by
  rw [List.getD_eq_getElem?_getD, List.getElem?_eq_getElem (by simpa using h)]
  simp [headBits]

/-- Bit `j` of chunk `k` is bit `8k + j` of the command, and 0 past the last one (R146, R147). -/
theorem chunk_bit (align : PartialAlign) (n : BitCount) (data : List Byte) {k j : Nat} (hk : k < dataLength n)
    (hj : j < 8) :
    (chunk align n data k).getLsbD (7 - j)
      = (decide (8 * k + j < n.toNat) && commandBit align n data (8 * k + j)) := by
  have hlen : dataLength n = (n.toNat + 7) / 8 := rfl
  cases align with
  | left =>
    simp only [chunk, chunkLeft, commandBit]
    rw [show (8 * k + j) / 8 = k by omega, show (8 * k + j) % 8 = j by omega]
    split
    · rw [BitVec.getLsbD_and]
      by_cases h : 8 * k + j < n.toNat
      · rw [decide_eq_true h, Bool.true_and]
        have : (0xff#8 <<< (8 - (n.toNat - 8 * k))).getLsbD (7 - j) = true := by
          rw [BitVec.getLsbD_shiftLeft, show (0xff#8 : Byte) = BitVec.allOnes 8 from rfl, BitVec.getLsbD_allOnes]
          simp only [Bool.and_eq_true, decide_eq_true_eq, Bool.not_eq_true', decide_eq_false_iff_not]
          omega
        rw [this, Bool.and_true]
      · rw [decide_eq_false h, Bool.false_and]
        have : (0xff#8 <<< (8 - (n.toNat - 8 * k))).getLsbD (7 - j) = false := by
          rw [BitVec.getLsbD_shiftLeft]
          have : 7 - j < 8 - (n.toNat - 8 * k) := by omega
          simp [this]
        rw [this, Bool.and_false]
    · rw [decide_eq_true (by omega), Bool.true_and]
  | right =>
    have hg : alignGap n < 8 := by unfold alignGap; omega
    have hgn : n.toNat + alignGap n = 8 * dataLength n := by unfold alignGap; omega
    simp only [chunk, commandBit]
    have hshift : (dataIn data k <<< alignGap n).getLsbD (7 - j)
        = (decide (j + alignGap n < 8) && (dataIn data k).getLsbD (7 - (j + alignGap n))) := by
      rw [BitVec.getLsbD_shiftLeft]
      by_cases h : j + alignGap n < 8
      · have h1 : 7 - j < 8 := by omega
        have h2 : ¬ 7 - j < alignGap n := by omega
        simp only [h, h1, h2, decide_true, decide_false, Bool.not_false, Bool.true_and]
        congr 1
        omega
      · have h2 : 7 - j < alignGap n := by omega
        simp [h, h2]
    unfold chunkRight
    split
    · next hc =>
      rw [decide_eq_true (by omega), Bool.true_and, BitVec.getLsbD_or, hshift, BitVec.getLsbD_ushiftRight]
      by_cases h : j + alignGap n < 8
      · rw [decide_eq_true h, Bool.true_and, BitVec.getLsbD_of_ge (dataIn data (k + 1)) _ (by omega), Bool.or_false]
        congr 1
        · rw [show (8 * k + j + alignGap n) / 8 = k by omega]
        · omega
      · rw [decide_eq_false h, Bool.false_and, Bool.false_or]
        congr 1
        · rw [show (8 * k + j + alignGap n) / 8 = k + 1 by omega]
        · omega
    · next hc =>
      rw [hshift]
      by_cases h : j + alignGap n < 8
      · rw [decide_eq_true h, Bool.true_and, decide_eq_true (by omega), Bool.true_and]
        congr 1
        · rw [show (8 * k + j + alignGap n) / 8 = k by omega]
        · omega
      · rw [decide_eq_false h, Bool.false_and, decide_eq_false (by omega), Bool.false_and]

/-- The first `m` bits of a command. -/
def commandPrefix (align : PartialAlign) (n : BitCount) (data : List Byte) (m : Nat) : List Bool :=
  (List.range m).map (commandBit align n data)

theorem commandPrefix_add (align : PartialAlign) (n : BitCount) (data : List Byte) {k left : Nat}
    (hk : k < dataLength n) (hleft : left ≤ 8) (hle : 8 * k + left ≤ n.toNat) :
    commandPrefix align n data (8 * k + left)
      = commandPrefix align n data (8 * k) ++ headBits left (chunk align n data k) := by
  unfold commandPrefix headBits
  rw [List.range_add, List.map_append, List.map_map]
  congr 1
  apply List.map_congr_left
  intro j hj
  have hj' : j < left := by simpa using hj
  rw [Function.comp, chunk_bit align n data hk (by omega), decide_eq_true (by omega), Bool.true_and]

/-! ### The message the buffer holds, from any accumulator -/

/-- The accumulator after the first `p` blocks of a message, from the accumulator `h`. -/
def hashFrom (h : Words) (M : List Bool) : Nat → Words
  | 0 => h
  | p + 1 => compress (hashFrom h M p) (messageBlock M p)

theorem hashFrom_zero (M : List Bool) (p : Nat) : hashFrom (Vector.replicate 8 0) M p = hashBlocks M p := by
  induction p with
  | zero => rfl
  | succ p ih => simp only [hashFrom, hashBlocks, ih]

theorem hashFrom_append (h : Words) (M L : List Bool) {p : Nat} (hp : 512 * p ≤ M.length) :
    hashFrom h (M ++ L) p = hashFrom h M p := by
  induction p with
  | zero => rfl
  | succ p ih => simp only [hashFrom]; rw [ih (by omega), messageBlock_append _ _ (by omega)]

/-- `ACC`, `BLOCK`, `FILLBITS` and `BYTEPOS` are what absorbing `M` from the accumulator `h` leaves. -/
structure HoldsFrom (h : Words) (M : List Bool) (s : State) : Prop where
  acc      : s.acc = hashFrom h M (M.length / 512)
  fill     : s.fillBits.toNat = M.length % 512
  byte_pos : s.bytePos.toNat = s.fillBits.toNat / 8
  bits     : ∀ i, i < s.fillBits.toNat → blockBit s.block i = M.getD (512 * (M.length / 512) + i) false
  clean    : ∀ i, s.fillBits.toNat ≤ i → i / 8 = s.bytePos.toNat → blockBit s.block i = false

theorem HoldsFrom.counters {h : Words} {M : List Bool} {s : State} (H : HoldsFrom h M s) : CountersAgree s :=
  ⟨by rw [H.fill]; omega, H.byte_pos⟩

theorem getLsbD_zero_byte (k : Nat) : (0 : Byte).getLsbD k = false := by simp

/-- R36 (c) bit by bit. -/
theorem cleanTail_iff {s : State} (h : CountersAgree s) :
    CleanTail s ↔ ∀ i, s.fillBits.toNat ≤ i → i / 8 = s.bytePos.toNat → blockBit s.block i = false := by
  have hf := h.fill_lt
  have hp := h.byte_pos
  have hpos : s.bytePos.toNat < 64 := by omega
  have hmask : ∀ r, r < 8 → (0xff#8 >>> (s.fillBits &&& 7).toNat).getLsbD (7 - r)
      = decide (s.fillBits.toNat % 8 ≤ r) := by
    intro r hr
    rw [toNat_and_seven, getLsbD_shiftRight_byte _ hr, show (0xff#8 : Byte) = BitVec.allOnes 8 from rfl,
      BitVec.getLsbD_allOnes, decide_eq_true (p := 7 - _ < 8) (by omega), Bool.and_true]
  constructor
  · intro hc i hi hip
    have := congrArg (fun b => b.getLsbD (7 - i % 8)) (hc hpos)
    simp only [BitVec.getLsbD_and] at this
    rw [hmask _ (by omega), decide_eq_true (by omega), Bool.and_true] at this
    rw [blockBit_eq _ _ (by omega)]
    simpa [Vector.get_eq_getElem, hip] using this
  · intro hb _
    apply byte_eq_of_bits
    intro k hk
    rw [BitVec.getLsbD_and, hmask k hk, getLsbD_zero_byte]
    by_cases hkr : s.fillBits.toNat % 8 ≤ k
    · have := hb (8 * s.bytePos.toNat + k) (by omega) (by omega)
      rw [blockBit_eq _ _ (by omega)] at this
      have e1 : (8 * s.bytePos.toNat + k) / 8 = s.bytePos.toNat := by omega
      have e2 : (8 * s.bytePos.toNat + k) % 8 = k := by omega
      simp only [Vector.get_eq_getElem, e1, e2] at this
      rw [this, Bool.false_and]
    · rw [decide_eq_false hkr, Bool.and_false]

/-- R149: a residual of `left` bits, the rest of its byte 0, appends them to the message. -/
theorem residual_holds {h : Words} {M : List Bool} {s : State} (H : HoldsFrom h M s) {left : Nat} {b : Byte}
    (hpos : 0 < left) (hle : left ≤ 8) (hb : ∀ j, left ≤ j → j < 8 → b.getLsbD (7 - j) = false) :
    HoldsFrom h (M ++ headBits left b) (residualBits (s.fillBits.toNat % 8) left b s) := by
  have hfill := H.fill
  have hp := H.byte_pos
  have hlen : (M ++ headBits left b).length = M.length + left := by simp
  -- the bits of the block once the head of the chunk is in the current byte
  have hor : ∀ i, i < 512 → i / 8 = s.bytePos.toNat ∨ i < s.fillBits.toNat →
      i < s.fillBits.toNat + 8 →
      blockBit (orByte s.block s.bytePos.toNat (b >>> (s.fillBits.toNat % 8))) i
        = (M ++ headBits left b).getD (512 * (M.length / 512) + i) false := by
    intro i hi hwhere h8
    rw [blockBit_orByte _ _ _ hi, getLsbD_shiftRight_byte _ (Nat.mod_lt _ (by decide))]
    by_cases hold : i < s.fillBits.toNat
    · rw [H.bits i hold, List.getD_append _ _ _ _ (by omega)]
      have : (decide (i / 8 = s.bytePos.toNat) && (decide (s.fillBits.toNat % 8 ≤ i % 8) &&
          b.getLsbD (7 - (i % 8 - s.fillBits.toNat % 8)))) = false := by
        by_cases hi8 : i / 8 = s.bytePos.toNat
        · have hno : ¬ s.fillBits.toNat % 8 ≤ i % 8 := by omega
          rw [decide_eq_false hno, Bool.false_and, Bool.and_false]
        · rw [decide_eq_false hi8, Bool.false_and]
      rw [this, Bool.or_false]
    · have hi8 : i / 8 = s.bytePos.toNat := by omega
      rw [H.clean i (by omega) hi8, decide_eq_true hi8, decide_eq_true (by omega), Bool.true_and, Bool.true_and,
        Bool.false_or, List.getD_append_right _ _ _ _ (by omega),
        show i % 8 - s.fillBits.toNat % 8 = i - s.fillBits.toNat by omega,
        show 512 * (M.length / 512) + i - M.length = i - s.fillBits.toNat by omega]
      by_cases hin : i - s.fillBits.toNat < left
      · rw [getD_headBits _ hin]
      · rw [hb _ (by omega) (by omega), List.getD_eq_default _ _ (by simp; omega)]
  rcases residual_cases H.counters hpos hle b with
    ⟨hfit, hacc, -, hf', hp', hblk⟩ | ⟨hov, hin, hacc, -, hf', hp', hblk⟩ | ⟨hov, hlast, hacc, -, hf', hp', hblk⟩
  · have hdiv : (M.length + left) / 512 = M.length / 512 := by omega
    refine ⟨?_, by rw [hlen]; omega, by omega, ?_, ?_⟩
    · rw [hacc, H.acc, hlen, hdiv, hashFrom_append _ _ _ (by omega)]
    · intro i hi
      rw [hblk, hlen, hdiv]
      exact hor i (by omega) (by omega) (by omega)
    · intro i hi hi8
      rw [hblk, hor i (by omega) (by omega) (by omega), List.getD_eq_default _ _ (by rw [hlen]; omega)]
  · have hdiv : (M.length + left) / 512 = M.length / 512 := by omega
    have hset : ∀ i, i < 512 → i / 8 ≤ s.bytePos.toNat + 1 →
        blockBit (setByte (orByte s.block s.bytePos.toNat (b >>> (s.fillBits.toNat % 8))) (s.bytePos.toNat + 1)
          (b <<< (8 - s.fillBits.toNat % 8))) i
          = (M ++ headBits left b).getD (512 * (M.length / 512) + i) false := by
      intro i hi hi8
      rw [blockBit_setByte _ _ _ hi]
      split
      · next hnew =>
        rw [getLsbD_shiftLeft_byte _ (by omega) (by omega), List.getD_append_right _ _ _ _ (by omega)]
        by_cases hr : i % 8 < s.fillBits.toNat % 8
        · rw [decide_eq_true hr, Bool.true_and,
            show i % 8 + (8 - s.fillBits.toNat % 8) = 512 * (M.length / 512) + i - M.length by omega]
          by_cases hin' : 512 * (M.length / 512) + i - M.length < left
          · rw [getD_headBits _ hin']
          · rw [hb _ (by omega) (by omega), List.getD_eq_default _ _ (by simp; omega)]
        · rw [decide_eq_false hr, Bool.false_and, List.getD_eq_default _ _ (by simp; omega)]
      · next hold => exact hor i hi (by omega) (by omega)
    refine ⟨?_, by rw [hlen]; omega, by omega, ?_, ?_⟩
    · rw [hacc, H.acc, hlen, hdiv, hashFrom_append _ _ _ (by omega)]
    · intro i hi
      rw [hblk, hlen, hdiv]
      exact hset i (by omega) (by omega)
    · intro i hi hi8
      rw [hblk, hset i (by omega) (by omega), List.getD_eq_default _ _ (by rw [hlen]; omega)]
  · have hdiv : (M.length + left) / 512 = M.length / 512 + 1 := by omega
    have hfull : orByte s.block s.bytePos.toNat (b >>> (s.fillBits.toNat % 8))
        = messageBlock (M ++ headBits left b) (M.length / 512) :=
      eq_messageBlock fun i hi => hor i hi (by omega) (by omega)
    have hset : ∀ i, i / 8 = 0 →
        blockBit (setByte (orByte s.block s.bytePos.toNat (b >>> (s.fillBits.toNat % 8))) 0
          (b <<< (8 - s.fillBits.toNat % 8))) i
          = (M ++ headBits left b).getD (512 * (M.length / 512 + 1) + i) false := by
      intro i hi8
      rw [blockBit_setByte _ _ _ (by omega), if_pos hi8, getLsbD_shiftLeft_byte _ (by omega) (by omega),
        List.getD_append_right _ _ _ _ (by omega)]
      by_cases hr : i % 8 < s.fillBits.toNat % 8
      · rw [decide_eq_true hr, Bool.true_and,
          show i % 8 + (8 - s.fillBits.toNat % 8) = 512 * (M.length / 512 + 1) + i - M.length by omega]
        by_cases hin' : 512 * (M.length / 512 + 1) + i - M.length < left
        · rw [getD_headBits _ hin']
        · rw [hb _ (by omega) (by omega), List.getD_eq_default _ _ (by simp; omega)]
      · rw [decide_eq_false hr, Bool.false_and, List.getD_eq_default _ _ (by simp; omega)]
    refine ⟨?_, by rw [hlen]; omega, by omega, ?_, ?_⟩
    · rw [hacc, H.acc, hlen, hdiv]
      simp only [hashFrom]
      rw [hfull, hashFrom_append _ _ _ (by omega)]
    · intro i hi
      rw [hblk, hlen, hdiv]
      exact hset i (by omega)
    · intro i hi hi8
      rw [hblk, hset i (by omega), List.getD_eq_default _ _ (by rw [hlen]; omega)]

/-- R148: `m` whole chunks append the first `8m` bits of the command. -/
theorem wholeChunks_holds {h : Words} {M : List Bool} {s : State} (H : HoldsFrom h M s) (align : PartialAlign)
    (n : BitCount) (data : List Byte) {m : Nat} (hm : 8 * m ≤ n.toNat) :
    HoldsFrom h (M ++ commandPrefix align n data (8 * m))
      (wholeChunks (s.fillBits.toNat % 8) (chunk align n data) m s) := by
  induction m with
  | zero => simpa [commandPrefix, wholeChunks] using H
  | succ m ih =>
    have ih := ih (by omega)
    have hk : m < dataLength n := by unfold dataLength; omega
    have hlt : s.fillBits.toNat % 8 < 8 := Nat.mod_lt _ (by decide)
    have hrem : (wholeChunks (s.fillBits.toNat % 8) (chunk align n data) m s).fillBits.toNat % 8
        = s.fillBits.toNat % 8 := by
      rw [(wholeChunks_counters H.counters _ _).2.1]; omega
    have hr := residual_holds ih (b := chunk align n data m) (left := 8) (by decide) (Nat.le_refl 8)
      (fun j h1 h2 => absurd h1 (by omega))
    rw [hrem, ← wholeChunk_eq_residual hlt, List.append_assoc,
      ← commandPrefix_add align n data hk (Nat.le_refl 8) (by omega)] at hr
    exact hr

/-- R151, less the tally: `ABSORB` appends the bits of the command, from whatever accumulator. -/
theorem absorbBits_holds {h : Words} {M : List Bool} {s : State} (H : HoldsFrom h M s) (align : PartialAlign)
    (n : BitCount) (data : List Byte) :
    HoldsFrom h (M ++ commandBits align n data) (absorbBits align n data s) := by
  have H' : HoldsFrom h M { s with totalBits := tally s.totalBits n } := ⟨H.1, H.2, H.3, H.4, H.5⟩
  obtain ⟨hle, hzero, hle', hk⟩ := left_bounds n
  have hw := wholeChunks_holds H' align n data hle'
  have hrem := (wholeChunks_counters H'.counters (chunk align n data) (wholeCount n)).2.1
  unfold absorbBits
  rw [toNat_and_seven]
  rcases Nat.eq_zero_or_pos n.toNat with h0 | hpos
  · have hl : n.toNat - 8 * wholeCount n = 0 := hzero.mpr h0
    have hc : wholeCount n = 0 := by omega
    have hbits : commandBits align n data = [] := by simp [commandBits, h0]
    rw [hl, hc, hbits, List.append_nil]
    simpa [residualBits, wholeChunks] using H'
  · have hr := residual_holds hw (b := chunk align n data (wholeCount n)) (left := n.toNat - 8 * wholeCount n)
      (by omega) hle (fun j h1 h2 => by
        rw [chunk_bit align n data (hk hpos) h2, decide_eq_false (by omega), Bool.false_and])
    simp only at hr hrem
    rw [hrem, show (s.fillBits.toNat + 8 * wholeCount n) % 512 % 8 = s.fillBits.toNat % 8 by omega,
      List.append_assoc, ← commandPrefix_add align n data (hk hpos) hle (by omega),
      show 8 * wholeCount n + (n.toNat - 8 * wholeCount n) = n.toNat by omega] at hr
    exact hr

end Sys2Proof.Machine
end

