-- ==== Sys2Proof/Laws/Finalize.lean ====
section
/-! SUPPORT. What the padding of `FINALIZE` does: the bits of the padded string, and the blocks the last COMPRESS
runs take. -/

namespace Sys2Proof.Machine

/-! ### The padded string -/

/-- R180: the padding reaches 256 bits short of a block boundary. -/
theorem padZeros_spec (N : Nat) : (N + 1 + padZeros N) % 512 = 256 := by unfold padZeros; omega

theorem length_padded (M : List Bool) : (padded M).length = M.length + 1 + padZeros M.length + 256 := by
  simp [padded, lengthBits]
  omega

/-- The bits of the padded string (R180). -/
theorem getD_padded (M : List Bool) (i : Nat) :
    (padded M).getD i false =
      if i < M.length then M.getD i false
      else if i = M.length then true
      else if i < M.length + 1 + padZeros M.length then false
      else if i < M.length + 1 + padZeros M.length + 256
        then M.length.testBit (255 - (i - (M.length + 1 + padZeros M.length)))
      else false := by
  unfold padded
  split
  · next h => exact List.getD_append _ _ _ _ h
  · next h =>
    rw [List.getD_append_right _ _ _ _ (by omega)]
    split
    · next h1 => rw [h1, Nat.sub_self]; rfl
    · next h1 =>
      obtain ⟨k, hk⟩ : ∃ k, i - M.length = k + 1 := ⟨i - M.length - 1, by omega⟩
      rw [hk, List.getD_cons_succ]
      split
      · next h2 =>
        rw [List.getD_append _ _ _ _ (by simp; omega), List.getD_eq_getElem?_getD,
          List.getElem?_replicate]
        split <;> rfl
      · next h2 =>
        rw [List.getD_append_right _ _ _ _ (by simp; omega), List.length_replicate]
        split
        · next h3 =>
          rw [List.getD_eq_getElem?_getD, lengthBits, List.getElem?_map, List.getElem?_range (by omega)]
          simp only [Option.map_some, Option.getD_some]
          congr 2
          omega
        · next h3 => exact List.getD_eq_default _ _ (by simp [lengthBits]; omega)

/-! ### The blocks -/

/-- Bit `r`, counted from the most significant, of the `1` bit's byte (R172). -/
theorem getLsbD_oneBit {rem r : Nat} (hr : r < 8) : (0x80#8 >>> rem).getLsbD (7 - r) = decide (r = rem) := by
  rw [getLsbD_shiftRight_byte _ hr]
  have hbit : ∀ k, k < 8 → (0x80#8 : Byte).getLsbD (7 - k) = decide (k = 0) := by decide
  rw [hbit _ (by omega)]
  by_cases h : r = rem
  · simp [h]
  · by_cases h2 : rem ≤ r
    · rw [decide_eq_false h, decide_eq_false (p := r - rem = 0) (by omega), Bool.and_false]
    · rw [decide_eq_false h, decide_eq_false h2, Bool.false_and]

/-- The bits of the block after step 1 and a zero fill from the next byte to byte `hi` (R172 to R174). -/
theorem blockBit_padOne {h : Words} {M : List Bool} {s : State} (H : HoldsFrom h M s) {hi i : Nat}
    (hi64 : 8 * hi ≤ 512) (hlt : i < 8 * hi) :
    blockBit (zeroFill (appendOneBit s).block (s.bytePos.toNat + 1) hi) i =
      if i < s.fillBits.toNat then M.getD (512 * (M.length / 512) + i) false else decide (i = s.fillBits.toNat) := by
  have hp := H.byte_pos
  have hf := H.counters.fill_lt
  rw [blockBit_zeroFill _ _ _ (by omega), appendOneBit_block, toNat_and_seven, blockBit_orByte _ _ _ (by omega),
    getLsbD_oneBit (Nat.mod_lt _ (by decide))]
  by_cases hold : i < s.fillBits.toNat
  · have h1 : ¬ s.bytePos.toNat + 1 ≤ i / 8 := by omega
    have h2 : ¬ (i / 8 = s.bytePos.toNat ∧ i % 8 = s.fillBits.toNat % 8) := by omega
    rw [if_pos hold, H.bits i hold, decide_eq_false h1, ← Bool.decide_and, decide_eq_false h2]
    simp
  · rw [if_neg hold]
    by_cases hb : i / 8 = s.bytePos.toNat
    · have h1 : ¬ s.bytePos.toNat + 1 ≤ i / 8 := by omega
      have h3 : (i % 8 = s.fillBits.toNat % 8) ↔ (i = s.fillBits.toNat) := by omega
      rw [H.clean i (by omega) hb, decide_eq_false h1, decide_eq_true hb]
      simp [h3]
    · have h1 : s.bytePos.toNat + 1 ≤ i / 8 := by omega
      have h2 : i / 8 < hi := by omega
      have h3 : ¬ i = s.fillBits.toNat := by omega
      simp [h1, h2, h3]

/-- `BYTEPOS` after step 1 (R172). -/
theorem appendOneBit_bytePos_toNat {s : State} (h : CountersAgree s) :
    (appendOneBit s).bytePos.toNat = s.bytePos.toNat + 1 := by
  have hf := h.fill_lt
  have hp := h.byte_pos
  rw [appendOneBit_bytePos, BitVec.toNat_add, show (1 : BitVec 7).toNat = 1 from rfl]
  omega

/-- The case split of step 2 (R173, R179): one COMPRESS in all, or two. -/
theorem padAndCompress_cases {s : State} (h : CountersAgree s) :
    (s.bytePos.toNat < 32 ∧ (padAndCompress s).compressions = s.compressions + 1 ∧
      (padAndCompress s).acc = compress s.acc
        (writeLength (zeroFill (appendOneBit s).block (s.bytePos.toNat + 1) 32) s.totalBits)) ∨
    (32 ≤ s.bytePos.toNat ∧ (padAndCompress s).compressions = s.compressions + 2 ∧
      (padAndCompress s).acc = compress (compress s.acc (zeroFill (appendOneBit s).block (s.bytePos.toNat + 1) 64))
        (writeLength (zeroFill (zeroFill (appendOneBit s).block (s.bytePos.toNat + 1) 64) 0 32) s.totalBits)) := by
  have hb := appendOneBit_bytePos_toNat h
  unfold padAndCompress makeRoom
  rw [hb]
  by_cases hc : 32 < s.bytePos.toNat + 1
  · right
    rw [if_pos hc]
    exact ⟨by omega, rfl, rfl⟩
  · left
    rw [if_neg hc]
    refine ⟨by omega, rfl, ?_⟩
    unfold compressLength
    rw [runCompress_acc, hb]
    rfl

/-- R180 for the accumulator: the blocks of the padded string, in order, from whatever accumulator. -/
theorem padAndCompress_holds {h : Words} {M : List Bool} {s : State} (H : HoldsFrom h M s)
    (hT : s.totalBits = BitVec.ofNat 256 M.length) :
    (padAndCompress s).acc = hashFrom h (padded M) ((padded M).length / 512) := by
  have hp := H.byte_pos
  have hf := H.fill
  have hz := padZeros_spec M.length
  have hlen := length_padded M
  have hTbit : ∀ i, 256 ≤ i → i < 512 → s.totalBits.getLsbD (511 - i) = M.length.testBit (511 - i) := by
    intro i h1 h2
    rw [hT, BitVec.getLsbD_ofNat, decide_eq_true (by omega), Bool.true_and]
  have happ : hashFrom h (padded M) (M.length / 512) = s.acc := by
    rw [H.acc]; unfold padded; exact hashFrom_append _ _ _ (by omega)
  rcases padAndCompress_cases H.counters with ⟨hsmall, -, hacc⟩ | ⟨hbig, -, hacc⟩
  · have hz' : padZeros M.length = 255 - s.fillBits.toNat := by unfold padZeros; omega
    have hblk : writeLength (zeroFill (appendOneBit s).block (s.bytePos.toNat + 1) 32) s.totalBits
        = messageBlock (padded M) (M.length / 512) := by
      refine eq_messageBlock fun i hi => ?_
      rw [blockBit_writeLength _ _ hi, getD_padded]
      by_cases h256 : 256 ≤ i
      · rw [if_pos h256, hTbit i h256 hi, if_neg (by omega), if_neg (by omega), if_neg (by omega),
          if_pos (by omega)]
        congr 1
        omega
      · rw [if_neg h256, blockBit_padOne H (by decide) (by omega)]
        by_cases hold : i < s.fillBits.toNat
        · rw [if_pos hold, if_pos (by omega)]
        · rw [if_neg hold, if_neg (by omega)]
          by_cases heq : i = s.fillBits.toNat
          · rw [decide_eq_true heq, if_pos (by omega)]
          · rw [decide_eq_false heq, if_neg (by omega), if_pos (by omega)]
    rw [hacc, hblk, ← happ, show (padded M).length / 512 = M.length / 512 + 1 by omega]
    rfl
  · have hz' : padZeros M.length = 767 - s.fillBits.toNat := by unfold padZeros; omega
    have hfirst : zeroFill (appendOneBit s).block (s.bytePos.toNat + 1) 64
        = messageBlock (padded M) (M.length / 512) := by
      refine eq_messageBlock fun i hi => ?_
      rw [getD_padded, blockBit_padOne H (by decide) (by omega)]
      by_cases hold : i < s.fillBits.toNat
      · rw [if_pos hold, if_pos (by omega)]
      · rw [if_neg hold, if_neg (by omega)]
        by_cases heq : i = s.fillBits.toNat
        · rw [decide_eq_true heq, if_pos (by omega)]
        · rw [decide_eq_false heq, if_neg (by omega), if_pos (by omega)]
    have hsecond : ∀ blk : Block, writeLength (zeroFill blk 0 32) s.totalBits
        = messageBlock (padded M) (M.length / 512 + 1) := by
      intro blk
      refine eq_messageBlock fun i hi => ?_
      rw [blockBit_writeLength _ _ hi, getD_padded]
      by_cases h256 : 256 ≤ i
      · rw [if_pos h256, hTbit i h256 hi, if_neg (by omega), if_neg (by omega), if_neg (by omega), if_pos (by omega)]
        congr 1
        omega
      · rw [if_neg h256, blockBit_zeroFill _ _ _ hi, if_neg (by omega), if_neg (by omega), if_pos (by omega)]
        have : i / 8 < 32 := by omega
        simp [this]
    rw [hacc, hsecond, hfirst, ← happ, show (padded M).length / 512 = M.length / 512 + 1 + 1 by omega]
    rfl

end Sys2Proof.Machine
end

