-- ==== Sys2Proof/Laws/Invariant.lean ====
section
/-! SUPPORT. The invariants and the message a state holds: which registers they depend on, how they relate, and what
`ABSORB` reads of its data operand. -/

namespace Sys2Proof.Machine

/-! ### Which registers they depend on -/

/-- `Holds` speaks of the five HashState registers only. -/
theorem holds_congr {M : List Bool} {s t : State} (H : Holds M s) (hacc : t.acc = s.acc) (hblock : t.block = s.block)
    (hfill : t.fillBits = s.fillBits) (hpos : t.bytePos = s.bytePos) (htotal : t.totalBits = s.totalBits) :
    Holds M t := by
  cases s; cases t
  simp only at hacc hblock hfill hpos htotal
  subst hacc hblock hfill hpos htotal
  exact ⟨H.acc, H.total, H.fill, H.byte_pos, H.bits, H.clean_tail⟩

/-- `BufferInv` speaks of the four buffer registers only. -/
theorem bufferInv_congr {s t : State} (H : BufferInv s) (hblock : t.block = s.block) (hfill : t.fillBits = s.fillBits)
    (hpos : t.bytePos = s.bytePos) (htotal : t.totalBits = s.totalBits) : BufferInv t := by
  cases s; cases t
  simp only at hblock hfill hpos htotal
  subst hblock hfill hpos htotal
  exact ⟨H.fill_lt, H.byte_pos, H.clean_tail, H.fill_total⟩

/-! ### How they relate -/

/-- A HashState that holds a message meets R36, at whatever length (R157). -/
theorem Holds.bufferInv {M : List Bool} {s : State} (H : Holds M s) : BufferInv s := by
  refine ⟨by rw [H.fill]; omega, H.byte_pos, H.clean_tail, ?_⟩
  rw [H.fill, H.total, BitVec.toNat_ofNat]
  omega

/-- `Holds` is `HoldsFrom` the zero accumulator, with the length in `TOTALBITS`. -/
theorem holds_iff {M : List Bool} {s : State} :
    Holds M s ↔ HoldsFrom (Vector.replicate 8 0) M s ∧ s.totalBits = BitVec.ofNat 256 M.length := by
  constructor
  · intro H
    have hc : CountersAgree s := ⟨by rw [H.fill]; omega, H.byte_pos⟩
    exact ⟨⟨by rw [hashFrom_zero]; exact H.acc, H.fill, H.byte_pos, H.bits, (cleanTail_iff hc).mp H.clean_tail⟩,
      H.total⟩
  · rintro ⟨H, ht⟩
    exact ⟨by rw [← hashFrom_zero]; exact H.acc, ht, H.fill, H.byte_pos, H.bits,
      (cleanTail_iff H.counters).mpr H.clean⟩

/-- The valid bits of the block. -/
def validBits (s : State) : List Bool := (List.range s.fillBits.toNat).map (blockBit s.block)

@[simp] theorem length_validBits (s : State) : (validBits s).length = s.fillBits.toNat := by simp [validBits]

/-- Under the invariants alone, a HashState holds the valid bits of its block, counted from its own accumulator. -/
theorem holdsFrom_validBits {s : State} (h : BufferInv s) : HoldsFrom s.acc (validBits s) s := by
  have hf := h.fill_lt
  have hl := length_validBits s
  have hd : s.fillBits.toNat / 512 = 0 := by omega
  refine ⟨by rw [hl, hd]; rfl, by rw [hl]; omega, h.byte_pos, ?_, (cleanTail_iff ⟨hf, h.byte_pos⟩).mp h.clean_tail⟩
  intro i hi
  rw [hl, hd, List.getD_eq_getElem?_getD, validBits, List.getElem?_map, List.getElem?_range (by omega)]
  simp

/-! ### What `ABSORB` reads of its data -/

/-- A chunk depends on the bits of the command only (R159). -/
theorem chunk_congr {align : PartialAlign} {n : BitCount} {data data' : List Byte}
    (hb : commandBits align n data = commandBits align n data') {k : Nat} (hk : k < dataLength n) :
    chunk align n data k = chunk align n data' k := by
  apply byte_eq_of_bits
  intro j hj
  rw [chunk_bit _ _ _ hk hj, chunk_bit _ _ _ hk hj]
  by_cases h : 8 * k + j < n.toNat
  · have := congrArg (fun l => l[8 * k + j]?) hb
    simp only [commandBits, List.getElem?_map, List.getElem?_range h, Option.map_some, Option.some.injEq] at this
    rw [this]
  · simp [h]

theorem wholeChunks_congr {rem : Nat} {c c' : Nat → Byte} {m : Nat} (h : ∀ k, k < m → c k = c' k) (s : State) :
    wholeChunks rem c m s = wholeChunks rem c' m s := by
  induction m with
  | zero => rfl
  | succ m ih =>
    simp only [wholeChunks]
    rw [ih fun k hk => h k (by omega), h m (by omega)]

/-- `ABSORB` depends on its chunks only. -/
theorem absorbBits_congr {align align' : PartialAlign} {n : BitCount} {data data' : List Byte}
    (hb : ∀ k, k < dataLength n → chunk align n data k = chunk align' n data' k) (s : State) :
    absorbBits align n data s = absorbBits align' n data' s := by
  obtain ⟨-, h2, h3, h4⟩ := left_bounds n
  unfold absorbBits
  rcases Nat.eq_zero_or_pos n.toNat with h0 | hpos
  · have hl : n.toNat - 8 * wholeCount n = 0 := h2.mpr h0
    have hc : wholeCount n = 0 := by omega
    rw [hl]
    simp [residualBits, hc, wholeChunks]
  · simp only
    rw [wholeChunks_congr fun k hk => hb k (by have := h4 hpos; omega), hb _ (h4 hpos)]

end Sys2Proof.Machine
end

