-- ==== Sys2Proof/Laws/PerInstr.lean ====
section
/-! SUPPORT. Statements about every instruction as syntax, one lemma for each constructor. -/

namespace Sys2Proof.Laws

/-- The frame an instruction is encoded as has the length its command fixes (R77). -/
def FrameLength.Statement (i : Instr) : Prop :=
  ∀ frame, i.wf = true → encode i = some frame → frame.length = frameLength i

theorem FrameLength.init : FrameLength.Statement .init := by
  intro frame _ h; cases h; rfl

theorem FrameLength.absorb (bitCount : BitCount) (data : List Byte) :
    FrameLength.Statement (.absorb bitCount data) := by
  intro frame hwf h
  have hlen : data.length = dataLength bitCount := by simpa [Instr.wf] using hwf
  cases h
  simp [operandBytes, frameLength, hlen]
  omega

theorem FrameLength.finalize : FrameLength.Statement .finalize := by
  intro frame _ h; cases h; rfl

theorem FrameLength.compress : FrameLength.Statement .compress := by
  intro frame _ h; cases h

theorem FrameLength.illegal (cmd : CmdWord) : FrameLength.Statement (.illegal cmd) := by
  intro frame _ h; cases h; rfl

end Sys2Proof.Laws
end

