-- ==== Sys2Proof/Laws/Tables.lean ====
section
/-! SUPPORT. The printed tables are exactly what the spec's constructions produce (40_constant_tables.md rule R110):
a check of every entry of Machine/Tables.lean. -/

namespace Sys2Proof.Machine

/-- R101: `Einv` is the inverse permutation of `E`. -/
theorem miniEinv_miniE : ∀ u : BitVec 4, miniEinv (miniE u) = u := by decide

/-- R102, R103: the table is the construction from the mini-boxes. -/
theorem sbox_eq_sboxFromMini : ∀ x : Byte, sbox x = sboxFromMini x := by decide +kernel

/-- R106, R108: the table `C0` is the S-box times the matrix. -/
theorem c0_eq_c0FromSbox : ∀ x : Byte, c0 x = c0FromSbox x := by decide +kernel

/-- R109: the round constants are consecutive S-box entries. -/
theorem roundConstant_eq_fromSbox : ∀ r : Fin 10, roundConstant r = roundConstantFromSbox r := by decide +kernel

/-- R107: the rotation moves byte `j` of `C0` to byte `j + t` of `C_t`, cyclically. -/
theorem rotr64_byte : ∀ (w : Word) (t j : Fin 8),
    byteSel j.val (rotr64 w (8 * t.val)) = byteSel (j - t).val w := by
  intro w t j
  apply BitVec.eq_of_getLsbD_eq
  intro i hi
  have h : ∀ t j : Fin 8, (j - t).val = (j.val + 8 - t.val) % 8 := by decide
  simp only [byteSel, rotr64, BitVec.getLsbD_extractLsb', BitVec.getLsbD_rotateRight, h]
  have ht := t.isLt
  have hj := j.isLt
  rw [Nat.mod_eq_of_lt (show 8 * t.val < 64 by omega)]
  by_cases hc : t.val ≤ j.val
  · rw [show (j.val + 8 - t.val) % 8 = j.val - t.val by omega,
      show 56 - 8 * (j.val - t.val) + i = 8 * t.val + (56 - 8 * j.val + i) by omega]
    have : 56 - 8 * j.val + i < 64 - 8 * t.val := by omega
    simp [this, hi]
  · rw [show (j.val + 8 - t.val) % 8 = j.val + 8 - t.val by omega,
      show 56 - 8 * (j.val + 8 - t.val) + i = 56 - 8 * j.val + i - (64 - 8 * t.val) by omega]
    have h1 : ¬ 56 - 8 * j.val + i < 64 - 8 * t.val := by omega
    have h2 : 56 - 8 * j.val + i < 64 := by omega
    simp [h1, h2, hi]

end Sys2Proof.Machine
end

