-- ==== Sys2Proof/Tests/Slice0.lean ====
section
/-! SUPPORT. Tests. Expected results are the spec's own (30_encoding.md, 95_test_vectors.md); each names its vector.
The witnesses at the end show, for every statement of Certificates/Slice0/Obligations.lean that has hypotheses, states
and operands that meet them. -/

namespace Sys2Proof.Machine.Tests

open Sys2Proof Sys2Proof.Machine

-- Kernel evaluations one after another: each would otherwise wait in a thread of its own.
set_option Elab.async false

/-! ### Helpers -/

/-- The state right after `INIT`, but with no response yet and nothing sent. -/
def fresh : State := { State.reset with phase := .active }

/-- Whether an outcome is a next state with a property. -/
def isNext (o : Host.Outcome State Fault Refusal) (p : State → Bool) : Bool :=
  match o with
  | .next t => p t
  | .fault _ => false
  | .refused _ => false

/-- Whether an instruction ends in a next state with a property. -/
def after (i : Instr) (s : State) (p : State → Bool) : Bool := isNext (exec i s) p

/-- Whether an outcome is a given refusal. -/
def isRefused (o : Host.Outcome State Fault Refusal) (r : Refusal) : Bool :=
  match o with
  | .next _ => false
  | .fault _ => false
  | .refused r' => r' == r

/-- Words of hexadecimal digits as one number, first word most significant. -/
def ofWords (ws : List Nat) : Nat := ws.foldl (fun acc w => acc * 2 ^ 64 + w) 0

/-- Digest bytes as one number, byte 0 most significant. -/
def digestNumber (d : Digest) : Nat := d.toList.foldl (fun acc b => acc * 256 + b.toNat) 0

/-- The digest bytes of the last response as one number. -/
def lastDigest (s : State) : Option Nat := (s.responses.getLast?.bind Response.digest).map digestNumber

/-- The accumulator as one number, word 0 most significant. -/
def accNumber (s : State) : Nat := ofWords (s.acc.toList.map BitVec.toNat)

/-- The first bytes of the block, as numbers. -/
def blockPrefix (k : Nat) (s : State) : List Nat := (s.block.toList.take k).map BitVec.toNat

/-- The state after one `ABSORB` on a fresh HashState. -/
def absorbed (n : BitCount) (data : List Byte) : State := absorbCommand fresh.partialAlign n data fresh

/-- A state in phase `FINALIZED`. -/
def finalized : State := { State.reset with phase := .finalized }

/-! ### Well-formedness -/

theorem test_wf_absorb_takes_ceil : (Instr.absorb 9 [0xab, 0x80]).wf = true := by decide
theorem test_wf_absorb_zero : (Instr.absorb 0 []).wf = true := by decide
theorem test_wf_absorb_short : (Instr.absorb 9 [0xab]).wf = false := by decide
theorem test_wf_absorb_long : (Instr.absorb 8 [0xab, 0x80]).wf = false := by decide
theorem test_wf_absorb_zero_with_data : (Instr.absorb 0 [0x00]).wf = false := by decide
theorem test_wf_illegal_is_not_a_command :
    ((Instr.illegal 1).wf, (Instr.illegal 2).wf, (Instr.illegal 3).wf) = (false, false, false) := by decide
theorem test_wf_illegal_words :
    ((Instr.illegal 0).wf, (Instr.illegal 4).wf, (Instr.illegal 0x101).wf) = (true, true, true) := by decide

/-! ### Decoding (R80, R76, V-E5 to V-E7) -/

theorem test_decode_init : decode [0, 0, 0, 1] = .ok (.init, []) := by decide
theorem test_decode_absorb_24 :
    decode [0, 0, 0, 2, 0, 0, 0, 0, 0, 0, 0, 0x18, 0x61, 0x62, 0x63] = .ok (.absorb 24 [0x61, 0x62, 0x63], []) := by
  decide
theorem test_decode_absorb_bytes_of_count :
    decodeFrame ([0, 0, 0, 2, 0, 0, 0, 0, 0, 0, 0x01, 0xf8] ++ List.replicate 63 0x5a)
      = .ok (.absorb 504 (List.replicate 63 0x5a)) := by decide +kernel
theorem test_decode_finalize_leaves_the_rest : decode [0, 0, 0, 3, 0x7f] = .ok (.finalize, [0x7f]) := by decide
theorem test_decode_illegal_reads_no_operand : decode [0, 0, 1, 2, 0xaa] = .ok (.illegal 0x102, [0xaa]) := by decide
theorem test_decode_illegal_high_byte : decode [0x80, 0, 0, 1] = .ok (.illegal 0x80000001, []) := by decide
theorem test_decode_cut_short : decodeFrame [0, 0, 0] = .error .cutShort := by decide
theorem test_decode_absorb_cut_short : decodeFrame [0, 0, 0, 2, 0, 0, 0, 0, 0, 0, 0, 9, 0xab] = .error .cutShort := by
  decide
theorem test_decode_excess : decodeFrame [0, 0, 0, 1, 0] = .error .excessBytes := by decide
theorem test_encode_compress : encode .compress = none := by decide
theorem test_encode_absorb : encode (.absorb 4 [0xa0]) = some [0, 0, 0, 2, 0, 0, 0, 0, 0, 0, 0, 4, 0xa0] := by decide
theorem test_table_words :
    (decodeTableWord 32 1, decodeTableWord 32 2, decodeTableWord 32 3, decodeTableWord 32 0)
      = (some .init, some (.absorb 0 []), some .finalize, some (.illegal 0)) := by decide
theorem test_table_word_with_operands :
    decodeTableWord 104 (0xa0 * 2 ^ 96 + 4 * 2 ^ 32 + 2) = some (.absorb 4 [0xa0]) := by decide
theorem test_fetch_word_runs_next :
    isNext (step (State.reset.withFetchWord 32 1)) (fun t => after .init State.reset (fun u => t == u)) = true := by
  decide +kernel

/-! ### One step of each instruction -/

/-- R140, from reset. -/
theorem test_init_from_reset : after .init State.reset (fun t => t.status == 0x01 && t.responses.length == 1) = true := by
  decide +kernel
/-- V-E8: `INIT` does not clear `ERR`. -/
theorem test_init_keeps_err :
    after .init { finalized with err := true, acc := Vector.replicate 8 7, totalBits := 9 }
      (fun t => t.status == 0x81 && t.acc == Vector.replicate 8 0 && t.totalBits == 0) = true := by decide +kernel
/-- V-A9: a partial `ABSORB` at bit offset 3. -/
theorem test_absorb_at_offset :
    after (.absorb 10 [0xab, 0xc0]) (absorbed 3 [0xe0])
      (fun t => t.fillBits == 13 && t.bytePos == 1 && t.totalBits == 13 && blockPrefix 2 t == [0xf5, 0x78]) = true := by
  decide +kernel
/-- V-A5b: the block fills at its last bit. -/
theorem test_absorb_fills_block :
    after (.absorb 1 [0x80]) (absorbed 511 (List.replicate 64 0xff))
      (fun t => t.fillBits == 0 && t.bytePos == 0 && t.totalBits == 512 && t.compressions == 1
        && blockPrefix 1 t == [0x00]
        && accNumber t == ofWords [0x2541619d0b450b38, 0xe439110af57cba39, 0xc61a5dfd4374e51e, 0xb09f15a25d72844a,
            0xde67e153b2f5c34c, 0xd4faafdf3a403db1, 0x8fe57b366296c3cd, 0xa9ed32fbf3927850]) = true := by
  decide +kernel
/-- V-A10X and V-A10R: an engine with `PARTIAL_ALIGN = RIGHT`. -/
theorem test_absorb_right :
    after (.absorb 12 [0xab, 0xc0]) { fresh with partialAlign := .right } (fun t => blockPrefix 2 t == [0xbc, 0x00]) = true ∧
    after (.absorb 12 [0x0a, 0xbc]) { fresh with partialAlign := .right } (fun t => blockPrefix 2 t == [0xab, 0xc0]) = true := by
  decide +kernel
/-- V-F15: a whole run under `RIGHT`. -/
theorem test_digest_run_right :
    ((observe { State.reset with partialAlign := .right }
        (programFrames (digestProgram [(4, [0x06]), (20, [0x01, 0x62, 0x63])]))).digestValue.map digestNumber)
      = some 0x4E2448A4C6F486BB16B6562C73B4020BF3043E3A731BCE721AE1B303D97E6D4C7181EEBDB6C57E277D0E34957114CBD6C797FC9D95D8B582D225292076D4EEF5 := by
  decide +kernel
/-- K3: one COMPRESS. -/
theorem test_finalize_abc :
    after .finalize (absorbed 24 [0x61, 0x62, 0x63])
      (fun t => t.status == 0x02 && t.compressions == 1 && lastDigest t == some
        0x4E2448A4C6F486BB16B6562C73B4020BF3043E3A731BCE721AE1B303D97E6D4C7181EEBDB6C57E277D0E34957114CBD6C797FC9D95D8B582D225292076D4EEF5)
      = true := by decide +kernel
/-- V-F3: two COMPRESS. -/
theorem test_finalize_32_zero_bytes :
    after .finalize (absorbed 256 (List.replicate 32 0x00))
      (fun t => t.compressions == 2 && lastDigest t == some
        0x961B5F299F750F880FCA004BDF2882E2FE1B491B0C0EE7E2B514C5DFDD53292DBDBEE17E6D3BB5824CDEC1867CC7090963BE8FFF0C1D8ED5864E07CACB50D68A)
      = true := by decide +kernel
/-- V-C1. -/
theorem test_compress_zero :
    after .compress State.reset (fun t => t.code == .ok && accNumber t == ofWords
      [0xfb49073c4d7e581a, 0x7ac059cb42c15c08, 0x95e086d02e819c91, 0xbffcff66a605db91,
       0xf0b621801b7f899d, 0xf4e4e0d665315123, 0x2ecb2cedb7df1842, 0xc4c36538256db099]) = true := by decide +kernel
/-- V-R1. -/
theorem test_rho_round_constant :
    (rho (Vector.replicate 8 0) (constantKey 0x1823c6e887b8014f)).toList
      = 0x300beec0af902967#64 :: List.replicate 7 0x2828282828282828 := by decide +kernel
/-- V-E5. -/
theorem test_illegal_in_active : after (.illegal 4) fresh (fun t => t.status == 0x89) = true := by decide +kernel
/-- V-E7: illegal before phase. -/
theorem test_illegal_in_idle : after (.illegal 0) State.reset (fun t => t.status == 0x88) = true := by decide +kernel
/-- V-E1. -/
theorem test_absorb_in_idle :
    after (.absorb 8 [0x01]) State.reset (fun t => t.status == 0x84 && t.totalBits == 0) = true := by decide +kernel
/-- V-E3. -/
theorem test_finalize_in_finalized : after .finalize finalized (fun t => t.status == 0x86) = true := by decide +kernel
/-- V-T2, W5: a crossing of `2^64`. -/
theorem test_tally_crosses_64_bits : tally (2 ^ 64 - 1) 1 = 2 ^ 64 := by decide +kernel
/-- V-G1: `0x11D`, not the AES polynomial. -/
theorem test_gmul : (gmul 0x57 0x83, gmul 0xff 0x09, gmul 0x80 0x02) = (0x31, 0x54, 0x1d) := by decide +kernel

/-! ### The assembler (R79 to R84, P3) -/

theorem test_assemble_p3 :
    (Assembler.assemble "INIT ; start\nABSORB 4, 0x60\nABSORB 20, 0x162630\nFINALIZE".toList).map Assembler.byteStream
      = some [0, 0, 0, 1, 0, 0, 0, 2, 0, 0, 0, 0, 0, 0, 0, 4, 0x60,
          0, 0, 0, 2, 0, 0, 0, 0, 0, 0, 0, 0x14, 0x16, 0x26, 0x30, 0, 0, 0, 3] := by decide +kernel
theorem test_assemble_digest_with_salt :
    Assembler.assemble "DIGEST \"c\", \"ab\"".toList = some [.init, .absorb 24 [0x61, 0x62, 0x63], .finalize] := by
  decide +kernel
theorem test_assemble_repeat :
    Assembler.assemble ("REPEAT 2 ".toList ++ [Char.ofNat 0x7b] ++ "\nABSORBS \"a\"\nABSORB 0, \"\"\n".toList
        ++ [Char.ofNat 0x7d])
      = some [.absorb 8 [0x61], .absorb 0 [], .absorb 8 [0x61], .absorb 0 []] := by decide +kernel
theorem test_assemble_refuses_wrong_length : Assembler.assemble "ABSORB 9, 0xAB".toList = none := by decide +kernel

/-! ### Witnesses: states and operands that meet the hypotheses of the statements -/

/-- A state with one frame to take. -/
def sending (frame : List Byte) (s : State) : State := { s with inputs := [.frame frame] }

theorem witness_DecodeReadsBackEncode :
    (Instr.absorb 9 [0xab, 0x80]).wf = true ∧
      encode (.absorb 9 [0xab, 0x80]) = some [0, 0, 0, 2, 0, 0, 0, 0, 0, 0, 0, 9, 0xab, 0x80] := by decide
/-- Also for `FrameLengthIsFixedByItsCommand`, `RunAnswersEveryWellFormedFrame`: one frame of each command. -/
theorem witness_EncodeGivesBackDecodedFrame :
    decodeFrame [0, 0, 0, 1] = .ok .init ∧ decodeFrame [0, 0, 0, 2, 0, 0, 0, 0, 0, 0, 0, 1, 0x80] = .ok (.absorb 1 [0x80])
      ∧ decodeFrame [0, 0, 0, 3] = .ok .finalize ∧ decodeFrame [0xff, 0xff, 0xff, 0xff] = .ok (.illegal 0xffffffff) := by
  decide
/-- Every clause, the last one on each side of its boundaries. -/
theorem witness_EveryCommandWordIsACommandOrIllegal :
    ([0xab, 0x80] : List Byte).length = ((9 : BitCount).toNat + 7) / 8 ∧
    (0x00000000 : CmdWord).toNat % 256 = 0 ∧ 4 ≤ (0x00000004 : CmdWord).toNat % 256 ∧
    4 ≤ (0x000000ff : CmdWord).toNat % 256 ∧ (0x00000101 : CmdWord).toNat / 256 ≠ 0 ∧
    (0xffffff03 : CmdWord).toNat / 256 ≠ 0 := by decide
theorem witness_MalformedFramesAreRefused_short :
    ([0xab] : List Byte).length ≠ ((9 : BitCount).toNat + 7) / 8 ∧
    (sending (be32Bytes 0x00000002 ++ be64Bytes 9 ++ [0xab]) fresh).inputs
      = .frame (be32Bytes 0x00000002 ++ be64Bytes 9 ++ [0xab]) :: [] ∧
    isRefused (step (sending (be32Bytes 0x00000002 ++ be64Bytes 9 ++ [0xab]) fresh)) (.malformedFrame .cutShort) = true := by
  decide +kernel
/-- Also for `MalformedAbsorbTermIsRefused`, on either side. -/
theorem witness_MalformedFramesAreRefused_long :
    ([0xab, 0x80] : List Byte).length ≠ ((8 : BitCount).toNat + 7) / 8 ∧
    isRefused (step (sending (be32Bytes 0x00000002 ++ be64Bytes 8 ++ [0xab, 0x80]) fresh))
      (.malformedFrame .excessBytes) = true ∧
    isRefused (exec (.absorb 8 [0xab, 0x80]) fresh) (.malformedFrame .excessBytes) = true ∧
    isRefused (exec (.absorb 8 []) State.reset) (.malformedFrame .cutShort) = true := by decide +kernel
/-- A frame cut in the command word, in `BITCOUNT`, in the data, and to nothing. -/
theorem witness_MalformedFramesAreRefused_cut :
    (Instr.absorb 4 [0xa0]).wf = true ∧ encode (.absorb 4 [0xa0]) = some [0, 0, 0, 2, 0, 0, 0, 0, 0, 0, 0, 4, 0xa0] ∧
    ([0, 3, 4, 11, 12].all fun k =>
      isRefused (step (sending (([0, 0, 0, 2, 0, 0, 0, 0, 0, 0, 0, 4, 0xa0] : List Byte).take k) fresh))
        (.malformedFrame .cutShort)) = true := by decide +kernel
theorem witness_StepRunsDecodedInstruction :
    decodeFrame [0, 0, 0, 3] = .ok .finalize ∧ (sending [0, 0, 0, 3] fresh).inputs = .frame [0, 0, 0, 3] :: [] ∧
    decodeTableWord 32 2 = some (.absorb 0 []) := by decide +kernel
theorem witness_WaitingAndResetLeaveTheChannels : fresh.inputs = [] := by decide
/-- Also for the reset clauses of `WaitingAndResetLeaveTheChannels` and `PhaseMovesOnlyByInitFinalizeAndReset`. -/
theorem witness_ResetSetsEveryRegister :
    ({ absorbed 9 [0xab, 0x80] with inputs := [.reset] } : State).inputs = .reset :: [] := by decide
/-- Every command, with each code. Also for `ErrorsChangeOnlyStatus` (the middle three). -/
theorem witness_EveryCommandRespondsWithItsCode :
    after .init State.reset (fun t => t.responses == [{ code := .ok, digest := none }]) = true ∧
    after (.absorb 0 []) fresh (fun t => t.responses == [{ code := .ok, digest := none }]) = true ∧
    after (.absorb 0 []) finalized (fun t => t.responses == [{ code := .errInvalidState, digest := none }]) = true ∧
    after .finalize State.reset (fun t => t.responses == [{ code := .errInvalidState, digest := none }]) = true ∧
    after (.illegal 0) fresh (fun t => t.responses == [{ code := .errIllegalCommand, digest := none }]) = true ∧
    after .finalize fresh (fun t => t.code == .ok && (lastDigest t).isSome) = true := by decide +kernel
/-- Each clause: a reset, a frame that sets `ERR`, one that leaves it set, nothing sent. -/
theorem witness_ErrorFlagIsSetByErrorsAndClearedOnlyByReset :
    isNext (step { fresh with err := true, inputs := [.reset] }) (fun t => !t.err) = true ∧
    isNext (step (sending [0, 0, 0, 0] fresh)) (fun t => t.err && t.code != .ok) = true ∧
    isNext (step (sending [0, 0, 0, 1] { fresh with err := true })) (fun t => t.err && t.code == .ok) = true ∧
    isNext (step (sending [0, 0, 0, 1] fresh)) (fun t => !t.err) = true ∧
    isNext (step fresh) (fun t => t == fresh) = true := by decide +kernel
/-- `FINALIZE` moves to `FINALIZED` from `ACTIVE` only. -/
theorem witness_PhaseMovesOnlyByInitFinalizeAndReset :
    after .init finalized (fun t => t.phase == .active) = true ∧
    after .finalize fresh (fun t => t.phase == .finalized) = true ∧
    after .finalize State.reset (fun t => t.phase == .idle) = true ∧
    after (.absorb 1 [0x80]) fresh (fun t => t.phase == .active) = true ∧
    after .compress fresh (fun t => t.phase == .active) = true ∧
    after (.illegal 7) finalized (fun t => t.phase == .finalized) = true := by decide +kernel
/-- The `ABSORB` statements in phase `ACTIVE`: no bits, one bit, whole bytes, a bit past whole bytes. -/
theorem witness_absorb_active :
    fresh.phase = .active ∧ ([] : List Byte).length = ((0 : BitCount).toNat + 7) / 8 ∧
    ([0x80] : List Byte).length = ((1 : BitCount).toNat + 7) / 8 ∧
    ([0xab] : List Byte).length = ((8 : BitCount).toNat + 7) / 8 ∧
    ([0xab, 0x80] : List Byte).length = ((9 : BitCount).toNat + 7) / 8 := by decide
/-- The largest count the encoding admits. -/
theorem witness_absorb_largest :
    (List.replicate (2 ^ 61) (0 : Byte)).length = ((BitVec.allOnes 64 : BitCount).toNat + 7) / 8 := by
  rw [List.length_replicate]; decide
theorem witness_absorb_inactive : State.reset.phase ≠ .active ∧ finalized.phase ≠ .active := by decide
/-- `Holds` at no bits. -/
theorem witness_Holds_empty : Holds [] fresh :=
  ⟨rfl, rfl, rfl, rfl, fun i h => absurd h (Nat.not_lt_zero i), by unfold CleanTail; decide +kernel⟩
/-- `Holds` at four bits: V-A1. Also for `EveryStepKeepsAHeldMessage`. -/
theorem witness_Holds_four : Holds [true, false, true, false] (absorbed 4 [0xa0]) :=
  ⟨by decide +kernel, by decide +kernel, by decide +kernel, by decide +kernel, by decide +kernel, by unfold CleanTail; decide +kernel⟩
/-- `AbsorbAppendsItsBitsToTheMessage`, `FinalizeReturnsTheDigestOfThePaddedMessage`. -/
theorem witness_AbsorbAppendsItsBitsToTheMessage :
    Holds [true, false, true, false] (absorbed 4 [0xa0]) ∧ (absorbed 4 [0xa0]).phase = .active ∧
    ([0xbc, 0xd0] : List Byte).length = ((12 : BitCount).toNat + 7) / 8 :=
  ⟨witness_Holds_four, by decide +kernel, by decide⟩
/-- `HeldMessageMeetsTheBufferInvariant`: pieces, and a run from reset, with a refused frame, that ends in `ACTIVE`. -/
theorem witness_HeldMessageMeetsTheBufferInvariant :
    (∀ p ∈ [((4 : BitCount), ([0x60] : List Byte)), (0, [])], p.2.length = (p.1.toNat + 7) / 8) ∧
    AfterReset State.reset ∧ (runFrames [[0, 0, 0, 1], [0, 0]] State.reset).phase = .active :=
  ⟨by decide, ⟨rfl, rfl, rfl, rfl, rfl, rfl, by decide⟩, by decide +kernel⟩
/-- `BufferInv` at the fill levels 0, 4 and 511: the last one meets every bound. -/
theorem witness_BufferInv :
    BufferInv fresh ∧ BufferInv (absorbed 4 [0xa0]) ∧
    BufferInv { fresh with fillBits := 511, bytePos := 63, totalBits := 511 } := by
  refine ⟨⟨?_, ?_, ?_, ?_⟩, ⟨?_, ?_, ?_, ?_⟩, ⟨?_, ?_, ?_, ?_⟩⟩ <;> first | decide +kernel | (unfold CleanTail; decide +kernel)
/-- `AbsorbExitInvariant`, `AbsorbCompressionCount`: a state at the last fill level, and a command that ends. -/
theorem witness_AbsorbExitInvariant :
    BufferInv { fresh with fillBits := 511, bytePos := 63, totalBits := 511 } ∧
    ({ fresh with fillBits := 511, bytePos := 63, totalBits := 511 } : State).phase = .active ∧
    ([0x80] : List Byte).length = ((1 : BitCount).toNat + 7) / 8 ∧
    after (.absorb 1 [0x80]) { fresh with fillBits := 511, bytePos := 63, totalBits := 511 }
      (fun t => t.compressions == 1 && t.fillBits == 0) = true :=
  ⟨witness_BufferInv.2.2, rfl, by decide, by decide +kernel⟩
/-- `Inv` holds in every phase. -/
theorem witness_Inv : Inv State.reset ∧ Inv fresh ∧ Inv finalized :=
  ⟨fun h => (by cases h), fun _ => witness_BufferInv.1, fun h => (by cases h)⟩
/-- P3: "abc" cut at bit 4, against one `ABSORB`. -/
theorem witness_AbsorbIsIndependentOfTheSplit :
    Holds [] fresh ∧ fresh.phase = .active ∧ ([0x60] : List Byte).length = ((4 : BitCount).toNat + 7) / 8 ∧
    ([0x61, 0x62, 0x63] : List Byte).length = ((24 : BitCount).toNat + 7) / 8 ∧
    commandBits .left 24 [0x61, 0x62, 0x63] = commandBits .left 4 [0x60] ++ commandBits .left 20 [0x16, 0x26, 0x30] ∧
    ([0x16, 0x26, 0x30] : List Byte).length = ((20 : BitCount).toNat + 7) / 8 :=
  ⟨witness_Holds_empty, rfl, by decide, by decide, by decide +kernel, by decide⟩
/-- The same string as the pieces of a run, cut at bit 4 and not cut. Also for the third kind of cut, into bytes (W2). -/
theorem witness_AbsorbIsIndependentOfTheSplit_runs :
    let whole : List (BitCount × List Byte) := [(24, [0x61, 0x62, 0x63])]
    let cut : List (BitCount × List Byte) := [(4, [0x60]), (20, [0x16, 0x26, 0x30])]
    let bytes : List (BitCount × List Byte) := [(8, [0x61]), (8, [0x62]), (0, []), (8, [0x63])]
    (∀ p ∈ whole ++ cut ++ bytes, p.2.length = (p.1.toNat + 7) / 8) ∧
    whole.flatMap (fun p => commandBits .left p.1 p.2) = cut.flatMap (fun p => commandBits .left p.1 p.2) ∧
    whole.flatMap (fun p => commandBits .left p.1 p.2) = bytes.flatMap (fun p => commandBits .left p.1 p.2) := by
  decide +kernel
/-- V-A3: five unused bits, set and clear, under both alignments, each that of a state. -/
theorem witness_UnusedDataBitsAreIgnored :
    commandBits .left 3 [0xff] = commandBits .left 3 [0xe0] ∧ commandBits .right 3 [0xff] = commandBits .right 3 [0x07] ∧
    ([0xff] : List Byte) ≠ [0xe0] ∧ fresh.partialAlign = .left ∧
    ({ fresh with partialAlign := .right } : State).partialAlign = .right := by decide +kernel
/-- The largest `ABSORB` that stays in the block. -/
theorem witness_AbsorbWithinTheBlockFrame :
    BufferInv fresh ∧ fresh.phase = .active ∧ fresh.fillBits.toNat + (511 : BitCount).toNat < 512 ∧
    after (.absorb 511 (List.replicate 64 0xff)) fresh (fun t => t.compressions == 0) = true :=
  ⟨witness_BufferInv.1, rfl, by decide, by decide +kernel⟩
theorem witness_AlignmentsAgreeOnWholeBytes :
    (16 : BitCount).toNat % 8 = 0 ∧ ([0xab, 0xcd] : List Byte).length = ((16 : BitCount).toNat + 7) / 8 := by decide
/-- Both counts of `FINALIZE`, on each side of `FILLBITS = 256`. -/
theorem witness_FinalizeCompressionCount :
    BufferInv { fresh with fillBits := 255, bytePos := 31, totalBits := 255 } ∧
    BufferInv { fresh with fillBits := 256, bytePos := 32, totalBits := 256 } ∧
    ({ fresh with fillBits := 255, bytePos := 31, totalBits := 255 } : State).phase = .active := by
  refine ⟨⟨?_, ?_, ?_, ?_⟩, ⟨?_, ?_, ?_, ?_⟩, rfl⟩ <;> first | decide +kernel | (unfold CleanTail; decide +kernel)
/-- Both alternatives of the premise, with a state that sends such a word. Also, last, for
`IllFormedIllegalTermRaisesTheSameError`. -/
theorem witness_IllegalWordsRaiseIllegalCommandInEveryPhase :
    (0x00000101 : CmdWord).toNat / 256 ≠ 0 ∧
    ((0x00000004 : CmdWord).toNat % 256 ≠ 1 ∧ (0x00000004 : CmdWord).toNat % 256 ≠ 2 ∧
      (0x00000004 : CmdWord).toNat % 256 ≠ 3) ∧
    (sending (be32Bytes 4) fresh).inputs = .frame (be32Bytes 4) :: [] ∧
    ((0x00000003 : CmdWord) = 0x00000001 ∨ (0x00000003 : CmdWord) = 0x00000002 ∨
      (0x00000003 : CmdWord) = 0x00000003) := by decide
theorem witness_AfterReset : AfterReset State.reset :=
  ⟨rfl, rfl, rfl, rfl, rfl, rfl, by decide⟩
theorem witness_AccIsWrittenOnlyByInitAndCompress :
    after (.absorb 8 [0x61]) fresh (fun t => t.compressions == fresh.compressions) = true := by decide +kernel
/-- Two states that differ in stale bytes only, in phase `ACTIVE`. -/
theorem witness_OnlyLiveStateIsEverRead_active :
    SameLiveState fresh { fresh with block := (Vector.replicate 64 0).set 1 0xff } ∧ Inv fresh ∧
    fresh ≠ { fresh with block := (Vector.replicate 64 0).set 1 0xff } := by
  refine ⟨⟨rfl, rfl, rfl, rfl, rfl, rfl, fun _ => rfl, fun _ => rfl, fun _ => rfl, fun _ => rfl, fun _ => ?_⟩,
    witness_Inv.2.1, by decide +kernel⟩
  decide +kernel
/-- Two states that differ in the whole HashState, in phase `FINALIZED`. -/
theorem witness_OnlyLiveStateIsEverRead_finalized :
    SameLiveState finalized { finalized with acc := Vector.replicate 8 1, fillBits := 600, bytePos := 99 } ∧
    Inv finalized :=
  ⟨⟨rfl, rfl, rfl, rfl, rfl, rfl, fun h => (by cases h), fun h => (by cases h), fun h => (by cases h), fun h => (by cases h),
    fun h => (by cases h)⟩, witness_Inv.2.2⟩
/-- A launch state with earlier responses: the run's own are observed. -/
theorem witness_ObservationIsTheRunsOwnResponsesAndFinalStatus :
    decodeFrame [0, 0, 0, 4] = .ok (.illegal 4) ∧
    (runProgram [.init] State.reset).responses.length = 1 ∧
    observe (runProgram [.init] State.reset) [[0, 0, 0, 4]]
      = { responses := [{ code := .errIllegalCommand, digest := none }], status := 0x89 } := by decide +kernel
/-- `NoStepWritesTheParameter`: a step and an instruction that end in a next state. -/
theorem witness_NoStepWritesTheParameter :
    isNext (step (sending [0, 0, 0, 1] { fresh with partialAlign := .right })) (fun t => t.partialAlign == .right) = true ∧
    after .finalize fresh (fun t => t.partialAlign == .left) = true := by decide +kernel
/-- A run with a refused frame between two good ones. -/
theorem witness_RefusalMarkIsSetAndKept :
    decodeFrame [0, 0, 1] = .error .cutShort ∧
    (runFrames [[0, 0, 0, 1], [0, 0, 1], [0, 0, 0, 3]] State.reset).refusalMark = true ∧
    (runFrames [[0, 0, 0, 1], [0, 0, 0, 3]] State.reset).refusalMark = false := by decide +kernel
/-- `Inv`, and the premise of `EveryStepKeepsAHeldMessage`, with a step that leads to phase `ACTIVE`. -/
theorem witness_steps :
    (fresh.phase = .active → ∃ M, Holds M fresh) ∧ Inv (sending [0, 0, 0, 0] fresh) ∧
    isNext (step (sending [0, 0, 0, 0] fresh)) (fun t => t.phase == .active) = true :=
  ⟨fun _ => ⟨[], witness_Holds_empty⟩, fun _ => ⟨by decide, by decide, by unfold CleanTail; decide +kernel, by decide⟩,
    by decide +kernel⟩
/-- P3 as a list of pieces. -/
theorem witness_DigestRunReturnsTheMessageDigest :
    ∀ p ∈ [((4 : BitCount), ([0x60] : List Byte)), (20, [0x16, 0x26, 0x30])], p.2.length = (p.1.toNat + 7) / 8 := by
  decide
/-- W3. -/
theorem witness_SaltComposition : 8 * (([0x61, 0x62] : List Byte) ++ [0x63]).length < 2 ^ 64 := by decide
theorem witness_AssembledProgramsAreWellFormed :
    Assembler.assemble "DIGEST \"abc\"".toList = some [.init, .absorb 24 [0x61, 0x62, 0x63], .finalize] := by
  decide +kernel
theorem witness_ByteStreamDecodesToItsProgram :
    ∀ i ∈ [Instr.init, .absorb 9 [0xab, 0x80], .illegal 0, .finalize], i.wf = true ∧ isHostCommand i = true := by decide

end Sys2Proof.Machine.Tests
end

section
/-! Proofs on `STATUS.ERR` and `PHASE` (10_state.md rules R26 and R29). Each command ends in `respondOk` or `raiseError`,
so what it does to these fields is said once per command, split by the phase it starts in. -/

namespace Sys2Proof.Machine

/-! ### `STATUS.ERR` -/

/-- R29 for one command from `s` to `t`: `ERR` is set by a code that is not `OK`, and otherwise kept. -/
def ErrTracksCode (s t : State) : Prop := t.err = true ↔ s.err = true ∨ t.code ≠ .ok

/-- A command that leaves `ERR` alone until it responds `OK`. -/
theorem respondOk_errTracksCode (d : Option Digest) {s u : State} (h : u.err = s.err) :
    ErrTracksCode s (respondOk d u) := by
  simp [ErrTracksCode, h]

theorem raiseError_errTracksCode {c : Code} (hc : c ≠ .ok) (s : State) : ErrTracksCode s (raiseError c s) := by
  simp [ErrTracksCode, hc]

theorem absorbCommand_errTracksCode (align : PartialAlign) (n : BitCount) (data : List Byte) (s : State) :
    ErrTracksCode s (absorbCommand align n data s) := by
  by_cases hp : s.phase = .active
  · rw [absorbCommand_active hp]
    exact respondOk_errTracksCode _ (absorbBits_sameControl align n data s).err
  · rw [absorbCommand_inactive hp]
    exact raiseError_errTracksCode (by decide) s

theorem finalizeCommand_errTracksCode (s : State) : ErrTracksCode s (finalizeCommand s) := by
  by_cases hp : s.phase = .active
  · rw [finalizeCommand_active hp]
    exact respondOk_errTracksCode _ (padAndCompress_sameControl s).err
  · rw [finalizeCommand_inactive hp]
    exact raiseError_errTracksCode (by decide) s

/-- R29 for every host command. COMPRESS is none: it ends no command and keeps the old code. -/
theorem exec_errTracksCode {i : Instr} {s t : State} (hi : isHostCommand i = true) (h : exec i s = .next t) :
    ErrTracksCode s t := by
  cases i with
  | init =>
    cases h
    exact respondOk_errTracksCode _ rfl
  | absorb n data =>
    obtain ⟨-, rfl⟩ := exec_absorb_next h
    exact absorbCommand_errTracksCode _ n data s
  | finalize =>
    cases h
    exact finalizeCommand_errTracksCode s
  | compress => cases hi
  | illegal w =>
    cases h
    exact raiseError_errTracksCode (by decide) s

/-- A decoded frame is a host command, so COMPRESS never comes from one. -/
theorem isHostCommand_of_decodeFrame {frame : List Byte} {i : Instr} (h : decodeFrame frame = .ok i) :
    isHostCommand i = true := by
  obtain ⟨-, hhost, -⟩ := decode_cases (decodeFrame_ok.mp h)
  exact hhost

/-- Settles O14, by the four things a step can do: waiting, a reset, a decoded command (`exec_errTracksCode`), and the
refusal of a frame, which answers no next state. -/
theorem errorFlagIsSetByErrorsAndClearedOnlyByReset :
    Obligations.ErrorFlagIsSetByErrorsAndClearedOnlyByReset := by
  intro s t hstep
  obtain ⟨hin, hs⟩ | ⟨rest, hin, hs⟩ | ⟨frame, rest, i, hin, hd, hs⟩ | ⟨frame, rest, why, hin, hd, hs⟩ := step_cases s
  · cases hs.symm.trans hstep
    simp [hin]
  · cases hs.symm.trans hstep
    simp [hin]
  · have herr : ErrTracksCode { s with inputs := rest } t :=
      exec_errTracksCode (isHostCommand_of_decodeFrame hd) (hs.symm.trans hstep)
    simpa [hin, ErrTracksCode] using herr
  · cases hs.symm.trans hstep

/-! ### `PHASE` -/

theorem absorbCommand_phase (align : PartialAlign) (n : BitCount) (data : List Byte) (s : State) :
    (absorbCommand align n data s).phase = s.phase := by
  by_cases hp : s.phase = .active
  · rw [absorbCommand_active hp]
    exact (absorbBits_sameControl align n data s).phase
  · rw [absorbCommand_inactive hp, raiseError_phase]

theorem finalizeCommand_phase (s : State) :
    (finalizeCommand s).phase = if s.phase = .active then .finalized else s.phase := by
  by_cases hp : s.phase = .active
  · rw [finalizeCommand_active hp, respondOk_phase, if_pos hp]
  · rw [finalizeCommand_inactive hp, raiseError_phase, if_neg hp]

/-- A reset that is the oldest input is always taken (R230). -/
theorem step_reset {s : State} {rest : List HostInput} (h : s.inputs = .reset :: rest) :
    step s = .next (applyReset { s with inputs := rest }) := by
  simp [step, fetch, h]

/-- `PHASE` has two bits and three values (R26). -/
theorem phaseBits_ne_three (p : Phase) : p.bits ≠ 3 := by
  cases p <;> decide

/-- Settles O15, by cases on the instruction, with the phase lemma of each command. -/
theorem phaseMovesOnlyByInitFinalizeAndReset : Obligations.PhaseMovesOnlyByInitFinalizeAndReset := by
  refine ⟨fun i s t h => ?_, fun s rest hin => ⟨_, step_reset hin, applyReset_phase _⟩, rfl, rfl, rfl,
    phaseBits_ne_three⟩
  cases i with
  | init =>
    cases h
    exact respondOk_phase _ _
  | absorb n data =>
    obtain ⟨-, rfl⟩ := exec_absorb_next h
    exact absorbCommand_phase _ n data s
  | finalize =>
    cases h
    exact finalizeCommand_phase s
  | compress =>
    cases h
    exact runCompress_phase s
  | illegal w =>
    cases h
    exact raiseError_phase _ s

end Sys2Proof.Machine
end

section
/-! Proofs on frames (30_encoding.md rules R77 and R78). The encoder's frames are read back whatever follows them, so no
frame begins another; the only error the decoder itself gives is that bytes are missing. -/

namespace Sys2Proof

/-! ### The length of a frame -/

theorem length_of_encode {i : Instr} {frame : List Byte} (hwf : i.wf = true) (h : encode i = some frame) :
    frame.length = frameLength i := by
  cases i with
  | init => exact Laws.FrameLength.init frame hwf h
  | absorb n data => exact Laws.FrameLength.absorb n data frame hwf h
  | finalize => exact Laws.FrameLength.finalize frame hwf h
  | compress => exact Laws.FrameLength.compress frame hwf h
  | illegal w => exact Laws.FrameLength.illegal w frame hwf h

/-- R77 for any frame the decoder accepts: it is the encoding of what it decodes to. -/
theorem length_of_decodeFrame {frame : List Byte} {i : Instr} (h : decodeFrame frame = .ok i) :
    frame.length = frameLength i := by
  obtain ⟨hwf, -, f, hf, hframe⟩ := Machine.decode_cases (Machine.decodeFrame_ok.mp h)
  rw [hframe, List.append_nil]
  exact length_of_encode hwf hf

/-- Settles O5, by the length of the encoded frame; COMPRESS is no host command, so no frame decodes to it. -/
theorem frameLengthIsFixedByItsCommand : Obligations.FrameLengthIsFixedByItsCommand := by
  intro frame i h
  have hlen : frame.length = frameLength i := length_of_decodeFrame h
  cases i with
  | init => exact hlen
  | absorb n data => exact hlen
  | finalize => exact hlen
  | compress => cases Machine.isHostCommand_of_decodeFrame h
  | illegal w => exact hlen

/-! ### No frame begins another -/

theorem decode_absorbWord (rest : List Byte) : decode (be32Bytes 0x00000002 ++ rest) = decodeAbsorb rest :=
  decode_be32Bytes 0x00000002 rest

/-- The frame of a well-formed instruction is read back from the front of any stream (R71). -/
theorem decode_encode_append {i : Instr} {frame : List Byte} (hwf : i.wf = true) (h : encode i = some frame)
    (rest : List Byte) : decode (frame ++ rest) = .ok (i, rest) := by
  cases i with
  | init =>
    cases h
    exact decode_be32Bytes 0x00000001 rest
  | absorb n data =>
    have hlen : data.length = dataLength n := by simpa [Instr.wf] using hwf
    cases h
    show decode (be32Bytes 0x00000002 ++ (be64Bytes n ++ data) ++ rest) = _
    rw [List.append_assoc, List.append_assoc]
    exact (decode_absorbWord _).trans (decodeAbsorb_be64Bytes n data rest hlen)
  | finalize =>
    cases h
    exact decode_be32Bytes 0x00000003 rest
  | compress => cases h
  | illegal w =>
    have hcmd : decodeCmd w = none := by
      have hw : ¬ (w.toNat = 1 ∨ w.toNat = 2 ∨ w.toNat = 3) := by
        rw [← isCommandWord_iff]
        simpa [Instr.wf] using hwf
      rw [decodeCmd_eq, if_neg (by omega), if_neg (by omega), if_neg (by omega)]
    cases h
    show decode (be32Bytes w ++ [] ++ rest) = _
    rw [List.append_nil, decode_be32Bytes, hcmd]

theorem decodeAbsorb_error {bytes : List Byte} {e : FrameError} (h : decodeAbsorb bytes = .error e) :
    e = .cutShort := by
  unfold decodeAbsorb at h
  split at h
  · dsimp only at h
    split at h
    · cases h
      rfl
    · cases h
  · cases h
    rfl

/-- Bytes left over are no error of `decode`: it leaves them to the next frame. -/
theorem decode_error {bytes : List Byte} {e : FrameError} (h : decode bytes = .error e) : e = .cutShort := by
  unfold decode at h
  split at h
  · split at h
    · cases h
    · exact decodeAbsorb_error h
    · cases h
    · cases h
  · cases h
    rfl

/-- A frame cut short is not decoded (R78). Were an instruction read from its first `k` bytes, the whole frame would
decode to it too, with the cut bytes left over; but the whole frame leaves none. -/
theorem decodeFrame_take {i : Instr} {frame : List Byte} {k : Nat} (hwf : i.wf = true) (h : encode i = some frame)
    (hk : k < frame.length) : decodeFrame (frame.take k) = .error .cutShort := by
  have hcut : decode (frame.take k) = .error .cutShort := by
    cases hd : decode (frame.take k) with
    | error e => rw [decode_error hd]
    | ok r =>
      obtain ⟨j, left⟩ := r
      obtain ⟨hjwf, -, f, hf, htake⟩ := Machine.decode_cases hd
      have hsplit : frame = f ++ (left ++ frame.drop k) := by
        rw [← List.append_assoc, ← htake, List.take_append_drop]
      have hwhole : decode frame = .ok (j, left ++ frame.drop k) :=
        (congrArg decode hsplit).trans (decode_encode_append hjwf hf _)
      have hself : decode frame = .ok (i, []) := by simpa using decode_encode_append hwf h []
      have hnil : left ++ frame.drop k = [] := congrArg Prod.snd (Except.ok.inj (hwhole.symm.trans hself))
      have hdrop : frame.drop k = [] := (List.append_eq_nil_iff.mp hnil).2
      exact absurd (List.drop_eq_nil_iff.mp hdrop) (by omega)
  rw [decodeFrame, hcut]

/-! ### The data of an `ABSORB` frame -/

/-- The operand decoder on too few data bytes (R78). -/
theorem decodeAbsorb_short {n : BitCount} {data : List Byte} (h : data.length < dataLength n) :
    decodeAbsorb (be64Bytes n ++ data) = .error .cutShort := by
  simp only [be64Bytes, List.cons_append, List.nil_append, decodeAbsorb, be64_be64Bytes]
  exact if_pos h

/-- The operand decoder on enough data bytes: it takes `ceil(n/8)` of them and leaves the others. -/
theorem decodeAbsorb_enough {n : BitCount} {data : List Byte} (h : dataLength n ≤ data.length) :
    decodeAbsorb (be64Bytes n ++ data) = .ok (.absorb n (data.take (dataLength n)), data.drop (dataLength n)) := by
  have hlen : (data.take (dataLength n)).length = dataLength n := List.length_take_of_le h
  simpa using decodeAbsorb_be64Bytes n (data.take (dataLength n)) (data.drop (dataLength n)) hlen

/-- R78 for the decoder: an `ABSORB` frame with the wrong number of data bytes. -/
theorem decodeFrame_absorb_malformed {n : BitCount} {data : List Byte} (h : data.length ≠ dataLength n) :
    decodeFrame (be32Bytes 0x00000002 ++ be64Bytes n ++ data)
      = .error (if data.length < dataLength n then .cutShort else .excessBytes) := by
  rw [List.append_assoc, decodeFrame, decode_absorbWord]
  by_cases hlt : data.length < dataLength n
  · rw [decodeAbsorb_short hlt, if_pos hlt]
  · obtain ⟨b, left, hdrop⟩ : ∃ b left, data.drop (dataLength n) = b :: left :=
      List.exists_cons_of_ne_nil (by rw [Ne, List.drop_eq_nil_iff]; omega)
    rw [decodeAbsorb_enough (by omega), hdrop, if_neg hlt]

/-! ### Refusal by the step -/

/-- A frame the decoder does not accept is refused in every state (R78). -/
theorem Machine.step_malformed {s : State} {frame : List Byte} {rest : List HostInput} {why : FrameError}
    (hin : s.inputs = .frame frame :: rest) (hd : decodeFrame frame = .error why) :
    step s = .refused (.malformedFrame why) := by
  simp [step, fetch, hin, hd]

/-- Settles O6: the decoder accepts neither kind of frame, and a step refuses what the decoder does not accept. -/
theorem malformedFramesAreRefused : Obligations.MalformedFramesAreRefused :=
  ⟨fun _ _ _ _ hlen hin => Machine.step_malformed hin (decodeFrame_absorb_malformed hlen),
    fun _ _ _ _ _ hwf henc hk hin => Machine.step_malformed hin (decodeFrame_take hwf henc hk)⟩

end Sys2Proof
end

section
/-! Proofs on responses (30_encoding.md rule R73). What a command returns is said once, in `Responds`, and proved of
`respondOk` and `raiseError`, in one of which every host command ends. -/

namespace Sys2Proof.Machine

/-- R73 for one command from `s` to `t`: it returns `r`, whose code it writes to `STATUS.CODE`, with a digest (that of
the accumulator, R177) if it is a `FINALIZE` that ended with `OK`, and else without. -/
structure Responds (i : Instr) (s t : State) (r : Response) : Prop where
  responses : t.responses = s.responses ++ [r]
  code      : t.code = r.code
  digest    : r.digest = if i = .finalize ∧ r.code = .ok then some (digestBytes t.acc) else none

/-! ### What each command returns -/

/-- A command other than `FINALIZE` that responds `OK`, from a state `u` with the responses of `s`. -/
theorem respondOk_responds {i : Instr} (hi : i ≠ .finalize) {s u : State} (h : u.responses = s.responses) :
    Responds i s (respondOk none u) { code := .ok, digest := none } where
  responses := by rw [respondOk_responses, h]
  code := rfl
  digest := by rw [if_neg fun hf => hi hf.1]

theorem raiseError_responds (i : Instr) {c : Code} (hc : c ≠ .ok) (s : State) :
    Responds i s (raiseError c s) { code := c, digest := none } where
  responses := rfl
  code := rfl
  digest := by rw [if_neg fun hf => hc hf.2]

theorem absorbCommand_responds (align : PartialAlign) (n : BitCount) (data : List Byte) (s : State) :
    ∃ r, Responds (.absorb n data) s (absorbCommand align n data s) r := by
  by_cases hp : s.phase = .active
  · rw [absorbCommand_active hp]
    exact ⟨_, respondOk_responds (by nofun) (absorbBits_sameControl align n data s).responses⟩
  · rw [absorbCommand_inactive hp]
    exact ⟨_, raiseError_responds _ (by nofun) s⟩

/-- The only command with a digest: in `ACTIVE`, and `ACC` keeps what the digest was read from. -/
theorem finalizeCommand_responds (s : State) : ∃ r, Responds .finalize s (finalizeCommand s) r := by
  by_cases hp : s.phase = .active
  · rw [finalizeCommand_active hp]
    refine ⟨{ code := .ok, digest := some (digestBytes (padAndCompress s).acc) }, ?_, rfl, rfl⟩
    simp [(padAndCompress_sameControl s).responses]
  · rw [finalizeCommand_inactive hp]
    exact ⟨_, raiseError_responds _ (by nofun) s⟩

/-- R73 for every host command. COMPRESS is none, and returns nothing. -/
theorem exec_responds {i : Instr} {s t : State} (hi : isHostCommand i = true) (h : exec i s = .next t) :
    ∃ r, Responds i s t r := by
  cases i with
  | init =>
    cases h
    exact ⟨_, respondOk_responds (by nofun) rfl⟩
  | absorb n data =>
    obtain ⟨-, rfl⟩ := exec_absorb_next h
    exact absorbCommand_responds _ n data s
  | finalize =>
    cases h
    exact finalizeCommand_responds s
  | compress => cases hi
  | illegal w =>
    cases h
    exact ⟨_, raiseError_responds _ (by nofun) s⟩

/-! ### The code and the bytes of a response -/

/-- `STATUS.CODE` is bits 3:2 of `STATUS` (R27). -/
theorem status_code (s : State) : s.status.extractLsb' 2 2 = s.code.bits := by
  rw [State.status, statusByte, extract_high _ _ _ _ (by decide)]
  exact extract_low _ _

theorem Response.length_bytes (r : Response) : r.bytes.length = if r.digest.isSome then 65 else 1 := by
  obtain ⟨c, _ | D⟩ := r
  · rfl
  · simp [Response.bytes]

theorem Response.tail_bytes {r : Response} {D : Digest} (h : r.digest = some D) : r.bytes.tail = D.toList := by
  simp [Response.bytes, h]

theorem Response.head_bytes (r : Response) : r.bytes.head? = some (r.code.bits.setWidth 8) := rfl

/-- Settles O13, from what the command returns (`exec_responds`) and the byte form of any response. -/
theorem everyCommandRespondsWithItsCode : Obligations.EveryCommandRespondsWithItsCode := by
  intro i s t hi h
  obtain ⟨r, hresp, hcode, hdigest⟩ := exec_responds hi h
  refine ⟨r, hresp, hcode, ?statusCode, ?digestIff, ?digestValue, r.length_bytes, ?codeByte⟩
  case statusCode =>
    rw [status_code, hcode]
    cases r.code <;> rfl
  case digestIff =>
    rw [hdigest]
    split <;> simp [*]
  case digestValue =>
    intro D hD
    refine ⟨?_, Response.tail_bytes hD⟩
    rw [hdigest] at hD
    split at hD
    · exact (Option.some.inj hD).symm
    · cases hD
  case codeByte =>
    rw [r.head_bytes]
    cases r.code <;> rfl

end Sys2Proof.Machine
end

section
/-! Proofs on COMPRESS (41_compression.md). What a state keeps comes from the rules of `runCompress`. The ten rounds are
an induction over the round constants still to come. The two readings of the round transform are compared byte by byte:
a byte of a word taken from a lookup table is one product of the S-box and the matrix. -/

namespace Sys2Proof.Machine

/-! ### The frame of COMPRESS -/

/-- Settles O28: the next state is `runCompress s`, whose fields are the rules of `runCompress`. -/
theorem compressWritesOnlyAcc : Obligations.CompressWritesOnlyAcc := by
  intro s
  refine ⟨runCompress s, exec_compress s, runCompress_acc s, runCompress_block s, runCompress_fillBits s,
    runCompress_bytePos s, runCompress_totalBits s, runCompress_phase s, ?status, runCompress_inputs s,
    runCompress_responses s⟩
  case status => rw [State.status, State.status, runCompress_phase, runCompress_code, runCompress_err]

/-! ### The rounds and the feed-forward -/

@[simp] theorem get_xorWords (a b : Words) (i : Fin 8) : (xorWords a b).get i = a.get i ^^^ b.get i := by
  simp [xorWords]

/-- The rounds still to come, started after round `r`, end in the state of the last round. -/
theorem rounds_eq_cipherState (acc : Words) (blk : Block) {cs : List Word} {r : Nat}
    (h : roundConstants.toList.drop r = cs) :
    rounds cs (roundKey acc r) (cipherState acc blk r) = cipherState acc blk (r + cs.length) := by
  induction cs generalizing r with
  | nil => rfl
  | cons c cs ih =>
    have hc : roundConstants.toList.getD r 0 = c := by
      rw [List.getD_eq_getElem?_getD, ← List.head?_drop, h]
      rfl
    have hcs : roundConstants.toList.drop (r + 1) = cs := by
      rw [← List.tail_drop, h]
      rfl
    have hkey : rho (roundKey acc r) (constantKey c) = roundKey acc (r + 1) := by rw [roundKey, hc]
    rw [rounds, hkey, List.length_cons, ← Nat.add_assoc, Nat.add_right_comm]
    exact ih hcs

/-- R125, R126: all the rounds of COMPRESS. -/
theorem rounds_roundConstants (acc : Words) (blk : Block) :
    rounds roundConstants.toList acc (xorWords (blockWords blk) acc) = cipherState acc blk 10 :=
  rounds_eq_cipherState acc blk (r := 0) rfl

/-- Settles O29, by `rounds_roundConstants` and the words of the feed-forward. -/
theorem compressIsTheFeedForwardOfTenRounds : Obligations.CompressIsTheFeedForwardOfTenRounds := by
  intro acc blk i
  rw [compress, get_xorWords, get_xorWords, rounds_roundConstants]

/-! ### Bytes of words -/

@[simp] theorem byteSel_xor (t : Nat) (a b : Word) : byteSel t (a ^^^ b) = byteSel t a ^^^ byteSel t b :=
  BitVec.extractLsb'_xor

/-- A word is its eight bytes. -/
theorem wordOfBytes_byteSel (w : Word) : wordOfBytes (fun j => byteSel j.val w) = w := be64_be64Bytes w

theorem word_ext {a b : Word} (h : ∀ j : Fin 8, byteSel j.val a = byteSel j.val b) : a = b := by
  rw [← wordOfBytes_byteSel a, ← wordOfBytes_byteSel b, funext h]

@[simp] theorem byteSel_wordOfBytes (b : Fin 8 → Byte) (j : Fin 8) : byteSel j.val (wordOfBytes b) = b j := by
  have h : be64Bytes (wordOfBytes b) = [b 0, b 1, b 2, b 3, b 4, b 5, b 6, b 7] := be64Bytes_be64 ..
  simp only [be64Bytes, List.cons.injEq, and_true] at h
  obtain ⟨h0, h1, h2, h3, h4, h5, h6, h7⟩ := h
  fin_cases j
  exacts [h0, h1, h2, h3, h4, h5, h6, h7]

/-! ### The lookup tables -/

/-- R106: a byte of an entry of `C0` is the S-box value times an entry of the first row of the matrix. -/
theorem byteSel_c0 (x : Byte) (j : Fin 8) : byteSel j.val (c0 x) = gmul (sbox x) (cir.get j) := by
  have h : c0 x = wordOfBytes fun j => gmul (sbox x) (cir.get j) := c0_eq_c0FromSbox x
  rw [h, byteSel_wordOfBytes]

/-- R105, R107: table `C_t` holds row `t` of the matrix, because the rotation that makes it from `C0` is the one that
makes the rows of a circulant matrix from the first. -/
theorem byteSel_cTable (t j : Fin 8) (x : Byte) : byteSel j.val (cTable t.val x) = gmul (sbox x) (cirEntry t j) := by
  rw [cTable, rotr64_byte, byteSel_c0, cirEntry]

/-! ### The round transform -/

/-- R130 for one byte: the product that `theta` takes of column `t` after `gamma` and `pi` is a byte of what table `C_t`
looks up. -/
theorem gmul_substituted (A : Words) (i t j : Fin 8) :
    gmul (substituted A i t) (cirEntry t j) = byteSel j.val (cTable t.val (byteSel t.val (A.get (i - t)))) :=
  (byteSel_cTable t j _).symm

/-- Byte `j` of word `i`: the eight lookups are the eight products. -/
theorem byteSel_rhoWord (A k : Words) (i j : Fin 8) :
    byteSel j.val (rhoWord A k i) = diffused (substituted A i) j ^^^ byteSel j.val (k.get i) := by
  simp only [rhoWord, diffused, byteSel_xor, gmul_substituted, sub_zero]
  rfl

/-- Settles O30, byte by byte (`byteSel_rhoWord`). -/
theorem roundTransformIsTheAlgebraicComposition : Obligations.RoundTransformIsTheAlgebraicComposition := by
  intro A k
  refine congrArg Vector.ofFn (funext fun i => word_ext fun j => ?_)
  rw [byteSel_rhoWord, byteSel_xor, byteSel_wordOfBytes]

end Sys2Proof.Machine
end

section
/-! Proofs on runs (70_reset_and_hazards.md rule R242). A frame that encodes an instruction performs it, so a run of a
program performs its instructions one after another; and a predicate that every host command keeps holds after any
run. -/

namespace Sys2Proof.Machine

/-! ### One frame of a run -/

theorem decodeFrame_encode {i : Instr} {frame : List Byte} (hwf : i.wf = true) (h : encode i = some frame) :
    decodeFrame frame = .ok i := by
  rw [decodeFrame_ok]
  simpa using decode_encode_append hwf h []

/-- The step that takes a frame sent first performs what the frame decodes to, on the state without it. -/
theorem step_sendFirst {frame : List Byte} {i : Instr} (h : decodeFrame frame = .ok i) (s : State) :
    step (sendFirst frame s) = exec i s := by
  simp [step, fetch, sendFirst, h]

theorem runFrames_cons_ok {frame : List Byte} {i : Instr} {s t : State} (h : decodeFrame frame = .ok i)
    (ht : exec i s = .next t) (frames : List (List Byte)) :
    runFrames (frame :: frames) s = runFrames frames t := by
  rw [runFrames, step_sendFirst h, ht]

theorem runFrames_cons_error {frame : List Byte} {why : FrameError} (h : decodeFrame frame = .error why)
    (frames : List (List Byte)) (s : State) :
    runFrames (frame :: frames) s = runFrames frames { s with refusalMark := true } := by
  rw [runFrames, step_malformed rfl h]

/-- A decoded frame holds a well-formed instruction, so it is performed and not refused. -/
theorem exec_of_decodeFrame {frame : List Byte} {i : Instr} (h : decodeFrame frame = .ok i) (s : State) :
    ∃ t, exec i s = .next t := by
  cases i with
  | init => exact ⟨_, exec_init s⟩
  | absorb n data =>
    obtain ⟨hwf, -, -⟩ := decode_cases (decodeFrame_ok.mp h)
    exact ⟨_, exec_absorb (by simpa [Instr.wf] using hwf) s⟩
  | finalize => exact ⟨_, exec_finalize s⟩
  | compress => exact ⟨_, exec_compress s⟩
  | illegal w => exact ⟨_, exec_illegal w s⟩

theorem runFrames_append (frames frames' : List (List Byte)) (s : State) :
    runFrames (frames ++ frames') s = runFrames frames' (runFrames frames s) := by
  induction frames generalizing s with
  | nil => rfl
  | cons frame frames ih =>
    rw [List.cons_append]
    cases hd : decodeFrame frame with
    | ok i =>
      obtain ⟨t, ht⟩ := exec_of_decodeFrame hd s
      rw [runFrames_cons_ok hd ht, runFrames_cons_ok hd ht, ih]
    | error why => rw [runFrames_cons_error hd, runFrames_cons_error hd, ih]

/-! ### Invariants of runs -/

/-- What every host command and the refusal mark keep, every run keeps. -/
theorem runFrames_keeps {P : State → Prop}
    (hexec : ∀ {i s t}, isHostCommand i = true → exec i s = .next t → P s → P t)
    (hmark : ∀ {s}, P s → P { s with refusalMark := true }) (frames : List (List Byte)) {s : State} (h : P s) :
    P (runFrames frames s) := by
  induction frames generalizing s with
  | nil => exact h
  | cons frame frames ih =>
    cases hd : decodeFrame frame with
    | ok i =>
      obtain ⟨t, ht⟩ := exec_of_decodeFrame hd s
      rw [runFrames_cons_ok hd ht]
      exact ih (hexec (isHostCommand_of_decodeFrame hd) ht h)
    | error why =>
      rw [runFrames_cons_error hd]
      exact ih (hmark h)

/-! ### Runs of programs -/

theorem encode_isSome {i : Instr} (h : isHostCommand i = true) : ∃ frame, encode i = some frame := by
  cases i with
  | compress => cases h
  | init | absorb _ _ | finalize | illegal _ => exact ⟨_, rfl⟩

theorem runProgram_cons {i : Instr} {s t : State} (hwf : i.wf = true) (hi : isHostCommand i = true)
    (h : exec i s = .next t) (program : List Instr) : runProgram (i :: program) s = runProgram program t := by
  obtain ⟨frame, hframe⟩ := encode_isSome hi
  rw [runProgram, programFrames, List.filterMap_cons_some hframe,
    runFrames_cons_ok (decodeFrame_encode hwf hframe) h]
  rfl

@[simp] theorem runProgram_nil (s : State) : runProgram [] s = s := rfl

theorem runProgram_append (program program' : List Instr) (s : State) :
    runProgram (program ++ program') s = runProgram program' (runProgram program s) := by
  rw [runProgram, programFrames, List.filterMap_append, runFrames_append]
  rfl

theorem runProgram_absorb {n : BitCount} {data : List Byte} (h : data.length = dataLength n) (program : List Instr)
    (s : State) :
    runProgram (.absorb n data :: program) s = runProgram program (absorbCommand s.partialAlign n data s) :=
  runProgram_cons (by simpa [Instr.wf] using h) rfl (exec_absorb h s) program

theorem runProgram_finalize (program : List Instr) (s : State) :
    runProgram (.finalize :: program) s = runProgram program (finalizeCommand s) :=
  runProgram_cons rfl rfl (exec_finalize s) program

/-! ### What is observed of a run -/

/-- The responses of a run are those returned since its launch (R242). -/
theorem observe_responses {launch : State} {frames : List (List Byte)} {rs : List Response}
    (h : (runFrames frames launch).responses = launch.responses ++ rs) : (observe launch frames).responses = rs := by
  rw [observe, h, List.drop_left]

/-- The value of a run whose last response is an `OK` with a digest. -/
theorem digestValue_of_last {o : Observation} {rs : List Response} {D : Digest}
    (h : o.responses = rs ++ [{ code := .ok, digest := some D }]) : o.digestValue = some D := by
  simp [Observation.digestValue, h]

end Sys2Proof.Machine
end

section
/-! Proofs on `INIT` and `ABSORB` (42_accumulator.md). What a run of `ABSORB` commands does is said once, in `Absorbs`,
proved of one command and carried along the run; the statements on the message a HashState holds are read off it. -/

namespace Sys2Proof.Machine

/-! ### The tally -/

theorem toNat_tally (T : BitVec 256) (n : BitCount) :
    (tally T n).toNat = (T.toNat + n.toNat) % 2 ^ 256 := by
  have hn := n.isLt
  rw [tally, BitVec.toNat_add, BitVec.toNat_setWidth, Nat.mod_eq_of_lt (a := n.toNat) (by omega)]

theorem tally_ofNat (N : Nat) (n : BitCount) : tally (BitVec.ofNat 256 N) n = BitVec.ofNat 256 (N + n.toNat) := by
  apply BitVec.eq_of_toNat_eq
  rw [toNat_tally, BitVec.toNat_ofNat, BitVec.toNat_ofNat, Nat.mod_add_mod]

/-- `FILLBITS` and `TOTALBITS` move together, also where the tally wraps (R157). -/
theorem toNat_tally_mod (T : BitVec 256) (n : BitCount) : (tally T n).toNat % 512 = (T.toNat + n.toNat) % 512 := by
  rw [toNat_tally]
  omega

/-! ### One `ABSORB` -/

theorem CleanTail.of_holdsFrom {h : Words} {M : List Bool} {s : State} (H : HoldsFrom h M s) : CleanTail s :=
  (cleanTail_iff H.counters).mpr H.clean

theorem BufferInv.counters {s : State} (h : BufferInv s) : CountersAgree s := ⟨h.fill_lt, h.byte_pos⟩

/-- `ABSORB` keeps R36. -/
theorem absorbBits_bufferInv {s : State} (h : BufferInv s) (align : PartialAlign) (n : BitCount)
    (data : List Byte) : BufferInv (absorbBits align n data s) := by
  obtain ⟨hc, hfill, -⟩ := absorbBits_counters h.counters align n data
  have htotal : (absorbBits align n data s).totalBits = tally s.totalBits n :=
    (absorbBits_sameControl align n data s).totalBits
  have hft := h.fill_total
  exact
    { fill_lt := hc.fill_lt
      byte_pos := hc.byte_pos
      clean_tail := CleanTail.of_holdsFrom (absorbBits_holds (holdsFrom_validBits h) align n data)
      fill_total := by rw [hfill, htotal, toNat_tally_mod]; omega }

/-- `ABSORB` appends its bits to the message (R151), and counts them. -/
theorem holds_absorbBits {M : List Bool} {s : State} (H : Holds M s) (align : PartialAlign) (n : BitCount)
    (data : List Byte) : Holds (M ++ commandBits align n data) (absorbBits align n data s) := by
  obtain ⟨Hfrom, htotal⟩ := holds_iff.mp H
  refine holds_iff.mpr ⟨absorbBits_holds Hfrom align n data, ?_⟩
  have hlen : (M ++ commandBits align n data).length = M.length + n.toNat := by simp [commandBits]
  calc (absorbBits align n data s).totalBits
      = tally s.totalBits n := (absorbBits_sameControl align n data s).totalBits
    _ = BitVec.ofNat 256 (M.length + n.toNat) := by rw [htotal, tally_ofNat]
    _ = BitVec.ofNat 256 (M ++ commandBits align n data).length := by rw [hlen]

/-! ### `INIT` -/

/-- The state `INIT` leaves (R140). -/
def initialized (s : State) : State := respondOk none { zeroHashState s with phase := .active }

theorem exec_init_eq (s : State) : exec .init s = .next (initialized s) := exec_init s

@[simp] theorem initialized_acc (s : State) : (initialized s).acc = Vector.replicate 8 0 := rfl
@[simp] theorem initialized_block (s : State) : (initialized s).block = Vector.replicate 64 0 := rfl
@[simp] theorem initialized_fillBits (s : State) : (initialized s).fillBits = 0 := rfl
@[simp] theorem initialized_bytePos (s : State) : (initialized s).bytePos = 0 := rfl
@[simp] theorem initialized_totalBits (s : State) : (initialized s).totalBits = 0 := rfl
@[simp] theorem initialized_phase (s : State) : (initialized s).phase = .active := rfl
@[simp] theorem initialized_partialAlign (s : State) : (initialized s).partialAlign = s.partialAlign := rfl
@[simp] theorem initialized_err (s : State) : (initialized s).err = s.err := rfl
@[simp] theorem initialized_responses (s : State) :
    (initialized s).responses = s.responses ++ [{ code := .ok, digest := none }] := rfl

theorem holds_initialized (s : State) : Holds [] (initialized s) where
  acc := initialized_acc s
  total := initialized_totalBits s
  fill := by simp
  byte_pos := by simp
  bits := fun _ hi => absurd hi (Nat.not_lt_zero _)
  clean_tail := by simp [CleanTail]

theorem runProgram_init (program : List Instr) (s : State) :
    runProgram (.init :: program) s = runProgram program (initialized s) :=
  runProgram_cons rfl rfl (exec_init_eq s) program

/-! ### Runs of `ABSORB` -/

/-- What `count` successful `ABSORB` of the bits `bits`, one after another, make of `s`. -/
structure Absorbs (bits : List Bool) (count : Nat) (s t : State) : Prop where
  holds        : ∀ M, Holds M s → Holds (M ++ bits) t
  phase        : t.phase = .active
  partialAlign : t.partialAlign = s.partialAlign
  err          : t.err = s.err
  responses    : t.responses = s.responses ++ List.replicate count { code := .ok, digest := none }

theorem Absorbs.refl {s : State} (h : s.phase = .active) : Absorbs [] 0 s s where
  holds := fun M H => by rwa [List.append_nil]
  phase := h
  partialAlign := rfl
  err := rfl
  responses := by simp

theorem Absorbs.trans {bits bits' : List Bool} {k k' : Nat} {s t u : State} (h : Absorbs bits k s t)
    (h' : Absorbs bits' k' t u) : Absorbs (bits ++ bits') (k + k') s u where
  holds := fun M H => by
    rw [← List.append_assoc]
    exact h'.holds _ (h.holds M H)
  phase := h'.phase
  partialAlign := h'.partialAlign.trans h.partialAlign
  err := h'.err.trans h.err
  responses := by rw [h'.responses, h.responses, List.append_assoc, List.replicate_append_replicate]

theorem absorbCommand_absorbs {s : State} (hp : s.phase = .active) (align : PartialAlign) (n : BitCount)
    (data : List Byte) : Absorbs (commandBits align n data) 1 s (absorbCommand align n data s) := by
  obtain ⟨-, hphase, -, herr, -, hresp, -, -, halign⟩ := absorbBits_sameControl align n data s
  rw [absorbCommand_active hp]
  exact
    { holds := fun M H => holds_congr (holds_absorbBits H align n data) rfl rfl rfl rfl rfl
      phase := hphase.trans hp
      partialAlign := halign
      err := herr
      responses := by rw [respondOk_responses, hresp]; rfl }

/-- A run of well-formed `ABSORB` commands in phase `ACTIVE`, by induction over the pieces. -/
theorem runProgram_absorbs (pieces : List (BitCount × List Byte)) {s : State} (hp : s.phase = .active)
    (hwf : ∀ p ∈ pieces, p.2.length = dataLength p.1) :
    Absorbs (pieces.flatMap fun p => commandBits s.partialAlign p.1 p.2) pieces.length s
      (runProgram (pieces.map fun p => .absorb p.1 p.2) s) := by
  induction pieces generalizing s with
  | nil => exact Absorbs.refl hp
  | cons p pieces ih =>
    obtain ⟨hlen, hwf⟩ := List.forall_mem_cons.mp hwf
    have hone := absorbCommand_absorbs hp s.partialAlign p.1 p.2
    have hrest := ih hone.phase hwf
    rw [hone.partialAlign] at hrest
    rw [List.map_cons, runProgram_absorb hlen, List.flatMap_cons, List.length_cons, Nat.add_comm]
    exact hone.trans hrest

/-- `INIT` and a run of well-formed `ABSORB` commands, from any state. -/
theorem runProgram_init_absorbs (pieces : List (BitCount × List Byte)) (s : State)
    (hwf : ∀ p ∈ pieces, p.2.length = dataLength p.1) :
    Absorbs (pieces.flatMap fun p => commandBits s.partialAlign p.1 p.2) pieces.length (initialized s)
      (runProgram (.init :: pieces.map fun p => .absorb p.1 p.2) s) := by
  rw [runProgram_init]
  exact runProgram_absorbs pieces (initialized_phase s) hwf

/-- Settles O20: `INIT` starts the empty message, one `ABSORB` extends it (`absorbCommand_absorbs`), and so does a run
of them (`runProgram_absorbs`). -/
theorem absorbAppendsItsBitsToTheMessage : Obligations.AbsorbAppendsItsBitsToTheMessage :=
  ⟨fun s => ⟨_, exec_init_eq s, initialized_phase s, holds_initialized s⟩,
    fun M s _ _ H hp hlen => ⟨_, exec_absorb hlen s, (absorbCommand_absorbs hp _ _ _).holds M H⟩,
    fun M _ pieces H hp hwf => (runProgram_absorbs pieces hp hwf).holds M H⟩

end Sys2Proof.Machine
end

section
/-! Proofs on what follows from the message law (42_accumulator.md rules R152 to R159): the exit state of an `ABSORB`,
its count of COMPRESS, the bits it reads, the invariants along a run, and the independence of the split. -/

namespace Sys2Proof.Machine

/-! ### One command -/

/-- Settles O16: the meaning of `INIT`, written out. -/
theorem initCreatesZeroedHashState : Obligations.InitCreatesZeroedHashState := exec_init

/-- Settles O17, by the tally and the registers that the bits of an `ABSORB` leave alone (`absorbBits_sameControl`). -/
theorem absorbCompletesAndTalliesItsBits : Obligations.AbsorbCompletesAndTalliesItsBits := by
  intro s n data hp hlen
  obtain ⟨htotal, hphase, -, herr, hin, hresp, hfree, hmark, -⟩ := absorbBits_sameControl s.partialAlign n data s
  refine ⟨respondOk none (absorbBits s.partialAlign n data s), ?next, ?total, hphase.trans hp, rfl, herr, ?responses,
    hin, hfree, hmark⟩
  case next => rw [exec_absorb hlen, absorbCommand_active hp]
  case total => rw [respondOk_totalBits, htotal, toNat_tally]
  case responses => rw [respondOk_responses, hresp]

/-- Settles O18: the phase check raises the error before anything is written. -/
theorem absorbOutsideActiveIsInvalidState : Obligations.AbsorbOutsideActiveIsInvalidState := by
  intro s n data hp hlen
  rw [exec_absorb hlen, absorbCommand_inactive hp]
  rfl

/-- No bits: the tally adds 0, and neither the loop nor the residual step runs. -/
theorem absorbBits_zero (align : PartialAlign) (data : List Byte) (s : State) : absorbBits align 0 data s = s := by
  have htally : tally s.totalBits 0 = s.totalBits := by simp [tally]
  have hleft : (0 : BitCount).toNat - 8 * wholeCount 0 = 0 := rfl
  rw [absorbBits, htally, hleft, residualBits, if_pos rfl]
  rfl

/-- Settles O19: in `ACTIVE` by `absorbBits_zero`, in the other phases as any `ABSORB`. -/
theorem emptyAbsorbChangesNoHashStateRegister : Obligations.EmptyAbsorbChangesNoHashStateRegister := by
  intro s
  refine ⟨fun hp => ?active, fun hp => absorbOutsideActiveIsInvalidState s 0 [] hp rfl⟩
  case active =>
    rw [exec_absorb rfl, absorbCommand_active hp, absorbBits_zero]
    rfl

/-- Settles O21: `ABSORB` keeps R36 (`absorbBits_bufferInv`), and R36 bounds `BYTEPOS`. -/
theorem absorbExitInvariant : Obligations.AbsorbExitInvariant := by
  intro s n data hinv hp hlen
  obtain ⟨hfill, hpos, hclean, -⟩ := absorbBits_bufferInv hinv s.partialAlign n data
  refine ⟨respondOk none (absorbBits s.partialAlign n data s), ?next, hfill, hpos, ?bound, hclean⟩
  case next => rw [exec_absorb hlen, absorbCommand_active hp]
  case bound =>
    rw [respondOk_bytePos, hpos]
    omega

/-- Settles O22, by the counters of `absorbBits_counters`. -/
theorem absorbCompressionCount : Obligations.AbsorbCompressionCount := by
  intro s t n data hinv hp h
  obtain ⟨-, rfl⟩ := exec_absorb_next h
  obtain ⟨-, -, hcount⟩ := absorbBits_counters hinv.counters s.partialAlign n data
  rw [absorbCommand_active hp, respondOk_compressions, hcount]

/-- An `ABSORB` reads the bits of the command only. -/
theorem absorbCommand_congr {align : PartialAlign} {n : BitCount} {data data' : List Byte}
    (h : commandBits align n data = commandBits align n data') (s : State) :
    absorbCommand align n data s = absorbCommand align n data' s := by
  by_cases hp : s.phase = .active
  · rw [absorbCommand_active hp, absorbCommand_active hp, absorbBits_congr fun _ hk => chunk_congr h hk]
  · rw [absorbCommand_inactive hp, absorbCommand_inactive hp]

/-- Settles O24, by `absorbCommand_congr`. -/
theorem unusedDataBitsAreIgnored : Obligations.UnusedDataBitsAreIgnored := by
  intro s n data data' hlen hlen' h
  rw [exec_absorb hlen, exec_absorb hlen', absorbCommand_congr h]

/-! ### The invariants along a run -/

/-- In phase `ACTIVE` the HashState holds some message. -/
def HoldsSome (s : State) : Prop := s.phase = .active → ∃ M, Holds M s

theorem raiseError_holdsSome {s : State} (h : HoldsSome s) (c : Code) : HoldsSome (raiseError c s) := by
  intro hp
  obtain ⟨M, H⟩ := h hp
  exact ⟨M, holds_congr H rfl rfl rfl rfl rfl⟩

/-- No host command makes a HashState lose its message: `INIT` starts the empty one, `ABSORB` extends it, `FINALIZE`
leaves `ACTIVE`, and an error changes no register of the HashState. -/
theorem exec_holdsSome {i : Instr} {s t : State} (hi : isHostCommand i = true) (h : exec i s = .next t)
    (hs : HoldsSome s) : HoldsSome t := by
  cases i with
  | init =>
    cases h
    exact fun _ => ⟨[], holds_initialized s⟩
  | absorb n data =>
    obtain ⟨-, rfl⟩ := exec_absorb_next h
    by_cases hp : s.phase = .active
    · obtain ⟨M, H⟩ := hs hp
      exact fun _ => ⟨_, (absorbCommand_absorbs hp s.partialAlign n data).holds M H⟩
    · rw [absorbCommand_inactive hp]
      exact raiseError_holdsSome hs _
  | finalize =>
    cases h
    by_cases hp : s.phase = .active
    · intro ht
      rw [finalizeCommand_phase, if_pos hp] at ht
      cases ht
    · rw [finalizeCommand_inactive hp]
      exact raiseError_holdsSome hs _
  | compress => cases hi
  | illegal w =>
    cases h
    exact raiseError_holdsSome hs _

/-- From a state with a message, or with no HashState, every run leads to such a state. -/
theorem runFrames_holdsSome (frames : List (List Byte)) {s : State} (h : HoldsSome s) :
    HoldsSome (runFrames frames s) := by
  refine runFrames_keeps exec_holdsSome (fun hs hp => ?mark) frames h
  case mark =>
    obtain ⟨M, H⟩ := hs hp
    exact ⟨M, holds_congr H rfl rfl rfl rfl rfl⟩

theorem length_flatMap_commandBits (align : PartialAlign) (pieces : List (BitCount × List Byte)) :
    (pieces.flatMap fun p => commandBits align p.1 p.2).length = (pieces.map fun p => p.1.toNat).sum := by
  simp [List.length_flatMap, commandBits]

/-- Settles O42: a held message meets R36 (`Holds.bufferInv`), and its length gives both counters. After the commands of
the first clause the message is known (`runProgram_init_absorbs`); after any frames there is one
(`runFrames_holdsSome`). -/
theorem heldMessageMeetsTheBufferInvariant : Obligations.HeldMessageMeetsTheBufferInvariant := by
  refine ⟨fun s pieces hwf => ?commands, fun s frames hs hp => ?frames⟩
  case commands =>
    have hrun := runProgram_init_absorbs pieces s hwf
    have H := hrun.holds [] (holds_initialized s)
    rw [List.nil_append] at H
    have hfill := H.fill
    rw [length_flatMap_commandBits] at hfill
    have htotal := congrArg BitVec.toNat H.total
    rw [length_flatMap_commandBits, BitVec.toNat_ofNat] at htotal
    exact ⟨hrun.phase, H, H.bufferInv, hfill, htotal, H.bufferInv.fill_total⟩
  case frames =>
    have hidle : HoldsSome s := fun hactive => by cases hs.phase.symm.trans hactive
    obtain ⟨M, H⟩ := runFrames_holdsSome frames hidle hp
    exact ⟨H.bufferInv.fill_total, H.bufferInv, M, H⟩

/-! ### The digest of a run -/

/-- `FINALIZE` returns the digest of the message the HashState holds (R180). -/
theorem finalizeCommand_responses_of_holds {M : List Bool} {s : State} (H : Holds M s) (hp : s.phase = .active) :
    (finalizeCommand s).responses = s.responses ++ [{ code := .ok, digest := some (messageDigest M) }] := by
  obtain ⟨Hfrom, htotal⟩ := holds_iff.mp H
  have hresp : (padAndCompress s).responses = s.responses := (padAndCompress_sameControl s).responses
  rw [finalizeCommand_active hp, respondOk_responses, unspecifyBuffer_responses, hresp,
    padAndCompress_holds Hfrom htotal, hashFrom_zero, messageDigest]

/-- Every response of a digest run: `OK` to `INIT` and to each `ABSORB`, the digest of the concatenated bit strings to
`FINALIZE` (R233). -/
theorem runProgram_digestProgram_responses (pieces : List (BitCount × List Byte)) (s : State)
    (hwf : ∀ p ∈ pieces, p.2.length = dataLength p.1) :
    (runProgram (digestProgram pieces) s).responses
      = s.responses ++ (List.replicate (pieces.length + 1) { code := .ok, digest := none } ++
          [{ code := .ok,
             digest := some (messageDigest (pieces.flatMap fun p => commandBits s.partialAlign p.1 p.2)) }]) := by
  have hrun := runProgram_init_absorbs pieces s hwf
  rw [digestProgram, runProgram_append, runProgram_finalize, runProgram_nil,
    finalizeCommand_responses_of_holds (hrun.holds [] (holds_initialized s)) hrun.phase, hrun.responses,
    initialized_responses, List.replicate_succ]
  simp

/-- The value of a digest run is the digest of the concatenated bit strings (R242). -/
theorem digestValue_digestProgram (pieces : List (BitCount × List Byte)) (s : State)
    (hwf : ∀ p ∈ pieces, p.2.length = dataLength p.1) :
    (observe s (programFrames (digestProgram pieces))).digestValue
      = some (messageDigest (pieces.flatMap fun p => commandBits s.partialAlign p.1 p.2)) :=
  digestValue_of_last (observe_responses (runProgram_digestProgram_responses pieces s hwf))

/-! ### Independence of the split -/

/-- Two HashStates that hold the same message agree on every live register. -/
theorem Holds.unique {M : List Bool} {s t : State} (H : Holds M s) (H' : Holds M t) :
    s.acc = t.acc ∧ s.totalBits = t.totalBits ∧ s.fillBits = t.fillBits ∧ s.bytePos = t.bytePos ∧
      ∀ i, i < t.fillBits.toNat → blockBit s.block i = blockBit t.block i := by
  have hfill : s.fillBits.toNat = t.fillBits.toNat := H.fill.trans H'.fill.symm
  refine ⟨H.acc.trans H'.acc.symm, H.total.trans H'.total.symm, BitVec.eq_of_toNat_eq hfill, ?bytePos,
    fun i hi => ?bits⟩
  case bytePos => exact BitVec.eq_of_toNat_eq (by rw [H.byte_pos, H'.byte_pos, hfill])
  case bits => rw [H.bits i (hfill ▸ hi), H'.bits i hi]

/-- Settles O23: both ways of absorbing leave a HashState that holds the same message, which fixes the live registers
(`Holds.unique`); and the value of a digest run is a function of the concatenated bits (`digestValue_digestProgram`). -/
theorem absorbIsIndependentOfTheSplit : Obligations.AbsorbIsIndependentOfTheSplit := by
  refine ⟨fun M s n₁ n₂ n data₁ data₂ data H hp hlen₁ hlen₂ hlen hbits => ?commands,
    fun s pieces pieces' hwf hwf' hbits => ?runs⟩
  case commands =>
    have h₁ := absorbCommand_absorbs hp s.partialAlign n₁ data₁
    have h₂ := absorbCommand_absorbs h₁.phase s.partialAlign n₂ data₂
    have h := absorbCommand_absorbs hp s.partialAlign n data
    rw [hbits] at h
    refine ⟨_, _, _, exec_absorb hlen₁ s, ?second, exec_absorb hlen s,
      Holds.unique ((h₁.trans h₂).holds M H) (h.holds M H)⟩
    case second => rw [exec_absorb hlen₂, h₁.partialAlign]
  case runs =>
    refine ⟨_, digestValue_digestProgram pieces s hwf, ?_⟩
    rw [hbits]
    exact digestValue_digestProgram pieces' s hwf'

end Sys2Proof.Machine
end

section
/-! Proofs on the byte-wise tally (42_accumulator.md rule R144). With the bytes from `j` on done, `carry + value` is
what the sum exceeds the old value by, counted in units of the byte below: each iteration makes one more byte that of
the sum, and a stop at `carry = value = 0` leaves bytes that the two have in common. -/

namespace Sys2Proof.Machine

/-- Byte `j` of a 256-bit number: the value counted in units of that byte, modulo 256. -/
theorem lengthByte_ofNat (N : Nat) {j : Nat} (hj : j < 32) :
    lengthByte (BitVec.ofNat 256 N) j = BitVec.ofNat 8 (N / 2 ^ (248 - 8 * j)) := by
  have hpow : 2 ^ 256 = 2 ^ (248 - 8 * j) * 2 ^ (8 * j + 8) := by
    rw [← Nat.pow_add]
    congr 1
    omega
  apply BitVec.eq_of_toNat_eq
  rw [lengthByte, BitVec.extractLsb'_toNat, BitVec.toNat_ofNat, BitVec.toNat_ofNat, Nat.shiftRight_eq_div_pow, hpow,
    Nat.mod_mul_right_div_self, Nat.mod_mod_of_dvd _ (Nat.pow_dvd_pow 2 (by omega))]

/-- `TOTALBITS` on the way from `T` to `S`, byte `j` done last: the bytes of `T` below it, of `S` from it on. -/
def partlyTallied (T S j : Nat) : Vector Byte 32 :=
  Vector.ofFn fun i => lengthByte (BitVec.ofNat 256 (if i.val < j then T else S)) i.val

theorem partlyTallied_none (T S : Nat) : partlyTallied T S 32 = totalBytes (BitVec.ofNat 256 T) := by
  simp [partlyTallied, totalBytes]

theorem partlyTallied_all (T S : Nat) : partlyTallied T S 0 = totalBytes (BitVec.ofNat 256 S) := by
  simp [partlyTallied, totalBytes]

/-- The byte the loop reads at `j`. -/
theorem partlyTallied_getD (T S : Nat) {j : Nat} (hj : j < 32) :
    ((partlyTallied T S (j + 1)).toList.getD j 0).toNat = T / 2 ^ (248 - 8 * j) % 256 := by
  simp [partlyTallied, List.getD_eq_getElem?_getD, hj, lengthByte_ofNat]

/-- The byte the loop writes at `j`, when it is the sum's. -/
theorem partlyTallied_set (T S : Nat) {j : Nat} (hj : j < 32) {b : Byte}
    (hb : b = BitVec.ofNat 8 (S / 2 ^ (248 - 8 * j))) :
    (partlyTallied T S (j + 1)).setIfInBounds j b = partlyTallied T S j := by
  apply Vector.ext
  intro i hi
  simp only [partlyTallied, Vector.getElem_setIfInBounds, Vector.getElem_ofFn]
  by_cases hij : j = i
  · subst hij
    simp [hb, lengthByte_ofNat _ hj]
  · rw [if_neg hij]
    congr 3
    simp only [eq_iff_iff]
    omega

/-- The early stop: above a byte at which the two agree in full, they agree in every byte. -/
theorem partlyTallied_stop {T S j : Nat} (hj : j < 32) (h : S / 2 ^ (248 - 8 * j) = T / 2 ^ (248 - 8 * j)) :
    partlyTallied T S (j + 1) = totalBytes (BitVec.ofNat 256 S) := by
  apply Vector.ext
  intro i hi
  simp only [partlyTallied, totalBytes, Vector.getElem_ofFn]
  by_cases hij : i < j + 1
  · have hpow : 2 ^ (248 - 8 * i) = 2 ^ (248 - 8 * j) * 2 ^ (8 * j - 8 * i) := by
      rw [← Nat.pow_add]
      congr 1
      omega
    rw [if_pos hij, lengthByte_ofNat _ hi, lengthByte_ofNat _ hi, hpow, ← Nat.div_div_eq_div_mul,
      ← Nat.div_div_eq_div_mul, h]
  · rw [if_neg hij]

/-- One iteration of the loop. -/
theorem tallyLoop_go {carry value : Nat} (h : carry ≠ 0 ∨ value ≠ 0) (j : Nat) (TB : Vector Byte 32) :
    tallyLoop (j + 1) carry value TB =
      tallyLoop j ((carry + (TB.toList.getD j 0).toNat + value % 256) / 256) (value / 256)
        (TB.setIfInBounds j (BitVec.ofNat 8 (carry + (TB.toList.getD j 0).toNat + value % 256))) := if_pos h

/-- The loop of R144, by induction over the bytes still to come. -/
theorem tallyLoop_partlyTallied {T S : Nat} (j : Nat) (hj : j ≤ 32) {carry value : Nat}
    (h : S / 2 ^ (256 - 8 * j) = T / 2 ^ (256 - 8 * j) + value + carry) :
    tallyLoop j carry value (partlyTallied T S j) = totalBytes (BitVec.ofNat 256 S) := by
  induction j generalizing carry value with
  | zero => exact partlyTallied_all T S
  | succ j ih =>
    rw [show 256 - 8 * (j + 1) = 248 - 8 * j by omega] at h
    by_cases hgo : carry ≠ 0 ∨ value ≠ 0
    · have hbyte : BitVec.ofNat 8 (carry + T / 2 ^ (248 - 8 * j) % 256 + value % 256)
          = BitVec.ofNat 8 (S / 2 ^ (248 - 8 * j)) := by
        rw [h, ← BitVec.toNat_inj, BitVec.toNat_ofNat, BitVec.toNat_ofNat]
        omega
      have hnext : 2 ^ (256 - 8 * j) = 2 ^ (248 - 8 * j) * 256 := by
        rw [show 256 - 8 * j = 248 - 8 * j + 8 by omega, Nat.pow_add]
      rw [tallyLoop_go hgo, partlyTallied_getD T S hj, partlyTallied_set T S hj hbyte]
      refine ih (by omega) ?_
      rw [hnext, ← Nat.div_div_eq_div_mul, ← Nat.div_div_eq_div_mul, h]
      omega
    · have hsame : S / 2 ^ (248 - 8 * j) = T / 2 ^ (248 - 8 * j) := by omega
      exact (if_neg hgo).trans (partlyTallied_stop hj hsame)

/-- Settles O26: the loop started at the bytes of `T` with nothing carried (`tallyLoop_partlyTallied`). -/
theorem bytewiseTallyIsTheAddition : Obligations.BytewiseTallyIsTheAddition := by
  intro T n
  have hT : T = BitVec.ofNat 256 T.toNat := by simp
  have hloop := tallyLoop_partlyTallied (T := T.toNat) (S := T.toNat + n.toNat) 32 (by omega)
    (carry := 0) (value := n.toNat) (by simp)
  rw [partlyTallied_none, ← hT] at hloop
  rw [tallyBytewise, hloop, ← tally_ofNat, ← hT]

end Sys2Proof.Machine
end

section
/-! Proofs on `FINALIZE` (43_finalizer.md). In phase `ACTIVE` the command is the padding followed by `respondOk`, so each
statement reads a field of `padAndCompress`; the salt law is the message law of runs whose pieces are whole bytes. -/

namespace Sys2Proof.Machine

/-! ### The padded string -/

/-- The padding is the least that reaches 256 bits short of a block boundary (R180). -/
theorem padZeros_le {N z : Nat} (h : (N + 1 + z) % 512 = 256) : padZeros N ≤ z := by
  unfold padZeros
  omega

theorem length_padded_mod (M : List Bool) : (padded M).length % 512 = 0 := by
  have hz := padZeros_spec M.length
  rw [length_padded]
  omega

/-- The length is what follows the message, the `1` bit and the zeros. -/
theorem drop_padded (M : List Bool) : (padded M).drop ((padded M).length - 256) = lengthBits M.length := by
  have happ : padded M = (M ++ true :: List.replicate (padZeros M.length) false) ++ lengthBits M.length := by
    simp [padded]
  have hlen : (padded M).length - 256 = (M ++ true :: List.replicate (padZeros M.length) false).length := by
    rw [length_padded, List.length_append, List.length_cons, List.length_replicate]
    omega
  rw [hlen, happ, List.drop_left]

/-! ### The accumulator and the digest -/

theorem finalizeCommand_acc {s : State} (hp : s.phase = .active) :
    (finalizeCommand s).acc = (padAndCompress s).acc := by
  rw [finalizeCommand_active hp]
  rfl

/-- The accumulator keeps the hash of the padded message (R180). -/
theorem finalizeCommand_acc_of_holds {M : List Bool} {s : State} (H : Holds M s) (hp : s.phase = .active) :
    (finalizeCommand s).acc = hashBlocks (padded M) ((padded M).length / 512) := by
  obtain ⟨Hfrom, htotal⟩ := holds_iff.mp H
  rw [finalizeCommand_acc hp, padAndCompress_holds Hfrom htotal, hashFrom_zero]

/-- Settles O34: the response and the accumulator of a state that holds `M` (`finalizeCommand_responses_of_holds`,
`finalizeCommand_acc_of_holds`), and the shape of the padded string. -/
theorem finalizeReturnsTheDigestOfThePaddedMessage : Obligations.FinalizeReturnsTheDigestOfThePaddedMessage :=
  ⟨fun _ s H hp => ⟨_, exec_finalize s, finalizeCommand_responses_of_holds H hp, finalizeCommand_acc_of_holds H hp⟩,
    fun M => ⟨length_padded_mod M, padZeros_spec M.length, fun _ hz => padZeros_le hz, drop_padded M⟩⟩

/-- Digest byte `8i + j` is byte `j` of word `i` (R54, R177). -/
theorem get_digestBytes (acc : Words) (i j : Fin 8) :
    (digestBytes acc).get ⟨8 * i.val + j.val, by omega⟩ = byteSel j.val (acc.get i) := by
  have hword : (8 * i.val + j.val) / 8 = i.val := by omega
  have hbyte : (8 * i.val + j.val) % 8 = j.val := by omega
  simp [digestBytes, Vector.get_eq_getElem, hword, hbyte]

/-- Settles O32: the padding changes only the HashState and the count of COMPRESS (`padAndCompress_sameControl`), and
the digest bytes are those of the accumulator it leaves (`get_digestBytes`). -/
theorem finalizeReturnsTheAccumulatorBytes : Obligations.FinalizeReturnsTheAccumulatorBytes := by
  intro s hp
  obtain ⟨-, -, -, herr, hin, hresp, -, hmark, -⟩ := padAndCompress_sameControl s
  refine ⟨respondOk (some (digestBytes (padAndCompress s).acc)) { unspecifyBuffer (padAndCompress s) with
    phase := .finalized }, digestBytes (padAndCompress s).acc, ?next, rfl, rfl, herr, ?responses,
    get_digestBytes _, hin, hmark⟩
  case next => rw [exec_finalize, finalizeCommand_active hp]
  case responses => rw [respondOk_responses, unspecifyBuffer_responses, hresp]

/-! ### The count of COMPRESS -/

theorem finalizeCommand_compressions {s : State} (hp : s.phase = .active) :
    (finalizeCommand s).compressions = (padAndCompress s).compressions := by
  rw [finalizeCommand_active hp]
  rfl

/-- Settles O35, by the case split of step 2 (`padAndCompress_cases`). -/
theorem finalizeCompressionCount : Obligations.FinalizeCompressionCount := by
  intro s hinv hp
  have hpos := hinv.byte_pos
  refine ⟨by omega, _, exec_finalize s, ?count⟩
  case count =>
    rw [finalizeCommand_compressions hp]
    rcases padAndCompress_cases hinv.counters with ⟨hroom, hcount, -⟩ | ⟨hroom, hcount, -⟩
    · rw [hcount, if_neg (Nat.not_le.mpr hroom)]
    · rw [hcount, if_pos hroom]

/-! ### Outside `ACTIVE` -/

/-- Settles O33: the phase check raises the error before anything is written. -/
theorem finalizeOutsideActiveIsInvalidState : Obligations.FinalizeOutsideActiveIsInvalidState := by
  intro s hp
  rw [exec_finalize, finalizeCommand_inactive hp]
  rfl

/-! ### Whole bytes -/

/-- With a multiple of 8 bits there is no alignment gap, so both alignments count the bits alike (R146, R147). -/
theorem commandBit_wholeBytes (align : PartialAlign) {n : BitCount} (hn : n.toNat % 8 = 0) (data : List Byte)
    (j : Nat) : commandBit align n data j = (dataIn data (j / 8)).getLsbD (7 - j % 8) := by
  have hgap : alignGap n = 0 := by
    unfold alignGap
    omega
  cases align with
  | left => rfl
  | right => rw [commandBit, hgap, Nat.add_zero]

/-- The bits of a byte string, one index running over all of them. -/
theorem bitsOfBytes_eq_map_range (data : List Byte) :
    bitsOfBytes data = (List.range (8 * data.length)).map fun j => (dataIn data (j / 8)).getLsbD (7 - j % 8) := by
  induction data with
  | nil => rfl
  | cons b data ih =>
    have htail : ∀ j, dataIn (b :: data) (j / 8 + 1) = dataIn data (j / 8) := fun _ => rfl
    calc bitsOfBytes (b :: data)
        = (List.range 8).map (fun k => b.getLsbD (7 - k)) ++ bitsOfBytes data := rfl
      _ = (List.range (8 + 8 * data.length)).map
            fun j => (dataIn (b :: data) (j / 8)).getLsbD (7 - j % 8) := by
          rw [ih, List.range_add, List.map_append, List.map_map]
          congr 1
          exact List.map_congr_left fun j _ => by simp [htail]
      _ = _ := by rw [List.length_cons, Nat.mul_add, Nat.add_comm]

/-- An `ABSORB` of whole bytes takes the bits of its data, under either alignment. -/
theorem commandBits_wholeBytes (align : PartialAlign) {n : BitCount} {data : List Byte}
    (h : n.toNat = 8 * data.length) : commandBits align n data = bitsOfBytes data := by
  rw [commandBits, bitsOfBytes_eq_map_range, h]
  exact List.map_congr_left fun j _ => commandBit_wholeBytes align (by omega) data j

/-! ### The salt law -/

/-- What `ABSORBS` gives to `ABSORB` (R81): the bit count and the bytes. -/
def textPiece (text : List Byte) : BitCount × List Byte := (BitVec.ofNat 64 (8 * text.length), text)

theorem textPiece_toNat {text : List Byte} (h : 8 * text.length < 2 ^ 64) :
    (textPiece text).1.toNat = 8 * text.length := by
  rw [textPiece, BitVec.toNat_ofNat, Nat.mod_eq_of_lt h]

theorem bitsOfBytes_flatten (texts : List (List Byte)) : bitsOfBytes texts.flatten = texts.flatMap bitsOfBytes := by
  rw [← List.flatMap_id, bitsOfBytes, List.flatMap_assoc]
  rfl

/-- `INIT`, an `ABSORBS` for each text, `FINALIZE`: the last response carries the digest of the texts, one after
another. -/
theorem runProgram_texts_getLast (texts : List (List Byte)) (s : State)
    (h : ∀ text ∈ texts, 8 * text.length < 2 ^ 64) :
    (runProgram (.init :: texts.map Assembler.absorbs ++ [.finalize]) s).responses.getLast?
      = some { code := .ok, digest := some (messageDigest (bitsOfBytes texts.flatten)) } := by
  have hprogram : .init :: texts.map Assembler.absorbs ++ [.finalize] = digestProgram (texts.map textPiece) := by
    rw [digestProgram, List.map_map]
    rfl
  have hwf : ∀ p ∈ texts.map textPiece, p.2.length = dataLength p.1 := by
    refine List.forall_mem_map.mpr fun text ht => ?_
    have hn := textPiece_toNat (h text ht)
    rw [dataLength, hn]
    show text.length = (8 * text.length + 7) / 8
    omega
  have hbits : (texts.map textPiece).flatMap (fun p => commandBits s.partialAlign p.1 p.2)
      = bitsOfBytes texts.flatten := by
    rw [List.flatMap_map, bitsOfBytes_flatten]
    exact List.flatMap_congr fun text ht => commandBits_wholeBytes _ (textPiece_toNat (h text ht))
  rw [hprogram, runProgram_digestProgram_responses _ s hwf, hbits]
  simp

/-- Settles O48: the three programs absorb texts whose concatenation is `salt ++ message`
(`runProgram_texts_getLast`). -/
theorem saltComposition : Obligations.SaltComposition := by
  intro s message salt h
  have hone := runProgram_texts_getLast [salt ++ message] s (List.forall_mem_singleton.mpr h)
  rw [List.length_append] at h
  have htwo := runProgram_texts_getLast [salt, message] s (List.forall_mem_cons.mpr
    ⟨by omega, List.forall_mem_singleton.mpr (by omega)⟩)
  simp only [List.flatten_cons, List.flatten_nil, List.append_nil] at hone htwo
  exact ⟨rfl, htwo.trans hone.symm, hone⟩

end Sys2Proof.Machine
end

section
/-! Proofs on errors (60_exceptions.md). A command ends in `respondOk`, or it is `raiseError` on the state it started
from; an illegal word is decoded from its own four bytes and ends in `raiseError` too. -/

namespace Sys2Proof.Machine

/-! ### How a command ends -/

/-- R204: a host command ends with `OK`, or the state it leaves is that of an error raised before anything is
written. -/
theorem exec_ok_or_raiseError {i : Instr} {s t : State} (hi : isHostCommand i = true) (h : exec i s = .next t) :
    t.code = .ok ∨ ∃ c, t = raiseError c s := by
  cases i with
  | init =>
    cases h
    exact .inl rfl
  | absorb n data =>
    obtain ⟨-, rfl⟩ := exec_absorb_next h
    by_cases hp : s.phase = .active
    · exact .inl (by rw [absorbCommand_active hp, respondOk_code])
    · exact .inr ⟨_, absorbCommand_inactive hp _ n data⟩
  | finalize =>
    cases h
    by_cases hp : s.phase = .active
    · exact .inl (by rw [finalizeCommand_active hp, respondOk_code])
    · exact .inr ⟨_, finalizeCommand_inactive hp⟩
  | compress => cases hi
  | illegal w =>
    cases h
    exact .inr ⟨_, rfl⟩

/-- COMPRESS returns nothing (R128), so an instruction that returns a response is a host command. -/
theorem isHostCommand_of_responds {i : Instr} {s t : State} {r : Response} (h : exec i s = .next t)
    (hr : t.responses = s.responses ++ [r]) : isHostCommand i = true := by
  cases i with
  | compress =>
    cases h
    simp at hr
  | init | absorb | finalize | illegal => rfl

/-- Settles O37: the code of the response is the one the command left in `STATUS.CODE` (`exec_responds`), so an error
code rules out the end with `OK` (`exec_ok_or_raiseError`). -/
theorem errorsChangeOnlyStatus : Obligations.ErrorsChangeOnlyStatus := by
  intro i s t r h hr herr
  have hi : isHostCommand i = true := isHostCommand_of_responds h hr
  have hcode : t.code = r.code := by
    obtain ⟨r', hr', hcode, -⟩ := exec_responds hi h
    have hrr : r' = r := by simpa using hr'.symm.trans hr
    rw [hcode, hrr]
  obtain hok | ⟨c, rfl⟩ := exec_ok_or_raiseError hi h
  · exact absurd (hcode.symm.trans hok) herr
  · rw [← hcode]
    rfl

/-! ### Illegal command words -/

/-- A frame that is the oldest input and decodes is performed, on the state without it. -/
theorem step_command {s : State} {frame : List Byte} {rest : List HostInput} {i : Instr}
    (hin : s.inputs = .frame frame :: rest) (hd : decodeFrame frame = .ok i) :
    step s = exec i { s with inputs := rest } := by
  simp [step, fetch, hin, hd]

theorem wf_illegal_iff (w : CmdWord) : (Instr.illegal w).wf = true ↔ ¬ (w.toNat = 1 ∨ w.toNat = 2 ∨ w.toNat = 3) := by
  rw [← isCommandWord_iff]
  simp [Instr.wf]

theorem encode_illegal (w : CmdWord) : encode (.illegal w) = some (be32Bytes w) := rfl

/-- Settles O36: the word is a well-formed term of the illegal class, so its four bytes are read back from the front of
any stream (`decode_encode_append`), and its meaning raises the error in every state. -/
theorem illegalWordsRaiseIllegalCommandInEveryPhase : Obligations.IllegalWordsRaiseIllegalCommandInEveryPhase := by
  intro w hw
  have hwf : (Instr.illegal w).wf = true := (wf_illegal_iff w).mpr (by omega)
  refine ⟨exec_illegal w, fun s rest hin => ?step, decode_encode_append hwf (encode_illegal w)⟩
  case step => exact step_command hin (decodeFrame_encode hwf (encode_illegal w))

/-! ### The result by command and phase -/

theorem absorbCommand_code (align : PartialAlign) (n : BitCount) (data : List Byte) (s : State) :
    (absorbCommand align n data s).code = if s.phase = .active then .ok else .errInvalidState := by
  by_cases hp : s.phase = .active
  · rw [absorbCommand_active hp, respondOk_code, if_pos hp]
  · rw [absorbCommand_inactive hp, raiseError_code, if_neg hp]

theorem finalizeCommand_code (s : State) :
    (finalizeCommand s).code = if s.phase = .active then .ok else .errInvalidState := by
  by_cases hp : s.phase = .active
  · rw [finalizeCommand_active hp, respondOk_code, if_pos hp]
  · rw [finalizeCommand_inactive hp, raiseError_code, if_neg hp]

/-- Settles O38: each command completes with the code and the phase of its own lemma, read in each of the three
phases. -/
theorem resultByCommandAndPhase : Obligations.ResultByCommandAndPhase := by
  intro s
  refine ⟨⟨_, exec_init s, respondOk_code _ _, respondOk_phase _ _⟩,
    fun n data hlen => ⟨_, exec_absorb hlen s, ?absorbCode, absorbCommand_phase _ n data s⟩,
    ⟨_, exec_finalize s, ?finalizeCode, ?finalizePhase⟩⟩
  case absorbCode =>
    rw [absorbCommand_code]
    cases s.phase <;> rfl
  case finalizeCode =>
    rw [finalizeCommand_code]
    cases s.phase <;> rfl
  case finalizePhase =>
    rw [finalizeCommand_phase]
    cases s.phase <;> rfl

end Sys2Proof.Machine
end

section
/-! Proofs on reset (70_reset_and_hazards.md rule R230). The HashState is set by `zeroHashState`; what is left to say is
that the three fields `STATUS` is a view of read together as 0x00. -/

namespace Sys2Proof.Machine

/-- The values reset gives `PHASE`, `CODE` and `ERR` read as 0x00 (R27, R38). -/
@[simp] theorem applyReset_status (s : State) : (applyReset s).status = 0x00 := by
  rw [State.status, applyReset_phase, applyReset_code, applyReset_err]
  decide

theorem afterReset_applyReset (s : State) : AfterReset (applyReset s) where
  acc := applyReset_acc s
  block := applyReset_block s
  fillBits := applyReset_fillBits s
  bytePos := applyReset_bytePos s
  totalBits := applyReset_totalBits s
  phase := applyReset_phase s
  status := applyReset_status s

/-- Settles O10: the step takes the reset (`step_reset`), and `applyReset` gives every register its value of R38. -/
theorem resetSetsEveryRegister : Obligations.ResetSetsEveryRegister :=
  fun _ _ hin => ⟨_, step_reset hin, afterReset_applyReset _⟩

end Sys2Proof.Machine
end

section
/-! Proofs on the encoding (30_encoding.md). A frame is read back from the front of any stream (`decode_encode_append`),
and what the decoder accepts is such a frame (`decode_cases`): the round trips, the verdict on each command word and the
cutting of a byte stream follow. -/

namespace Sys2Proof.Machine

/-! ### One frame -/

theorem encode_eq_none_iff (i : Instr) : encode i = none ↔ i = .compress := by
  cases i <;> simp [encode, cmdWord]

/-- Settles O2, by `encode_eq_none_iff` and `decode_encode_append`. -/
theorem decodeReadsBackEncode : Obligations.DecodeReadsBackEncode :=
  ⟨encode_eq_none_iff,
    fun _ _ rest hwf henc => ⟨decode_encode_append hwf henc rest, decodeFrame_encode hwf henc⟩⟩

/-- Settles O3: an accepted frame is the encoding of its instruction with no byte left over (`decode_cases`). -/
theorem encodeGivesBackDecodedFrame : Obligations.EncodeGivesBackDecodedFrame := by
  intro frame i h
  obtain ⟨hwf, hhost, f, henc, hframe⟩ := decode_cases (decodeFrame_ok.mp h)
  rw [List.append_nil] at hframe
  exact ⟨hwf, hhost, hframe ▸ henc⟩

theorem encode_init : encode .init = some (be32Bytes 0x00000001) := rfl

theorem encode_absorb (n : BitCount) (data : List Byte) :
    encode (.absorb n data) = some (be32Bytes 0x00000002 ++ be64Bytes n ++ data) := rfl

theorem encode_finalize : encode .finalize = some (be32Bytes 0x00000003) := rfl

theorem wf_absorb_iff (n : BitCount) (data : List Byte) :
    (Instr.absorb n data).wf = true ↔ data.length = dataLength n := by
  simp [Instr.wf]

/-- Settles O4: in each clause the bytes are the encoding of a well-formed instruction. -/
theorem everyCommandWordIsACommandOrIllegal : Obligations.EveryCommandWordIsACommandOrIllegal := by
  intro w
  refine ⟨?init, ?absorb, ?finalize, fun hw => ?illegal⟩
  case init =>
    rintro rfl
    exact decodeFrame_encode rfl encode_init
  case absorb =>
    rintro rfl n data hlen
    exact decodeFrame_encode ((wf_absorb_iff n data).mpr hlen) (encode_absorb n data)
  case finalize =>
    rintro rfl
    exact decodeFrame_encode rfl encode_finalize
  case illegal => exact decodeFrame_encode ((wf_illegal_iff w).mpr (by omega)) (encode_illegal w)

/-- Settles O1: each list of bytes is the encoding of the instruction it stands for. -/
theorem specFramesDecode : Obligations.SpecFramesDecode :=
  ⟨decodeFrame_encode rfl encode_init, decodeFrame_encode (by decide) (encode_absorb 24 [0x61, 0x62, 0x63]),
    decodeFrame_encode (by decide) (encode_absorb 4 [0xa0]), decodeFrame_encode (by decide) (encode_absorb 0 []),
    decodeFrame_encode rfl encode_finalize, decodeFrame_encode (by decide) (encode_illegal 0x00000004),
    decodeFrame_encode (by decide) (encode_illegal 0x00000102),
    decodeFrame_encode (by decide) (encode_illegal 0x00000000)⟩

/-! ### Byte streams -/

theorem frameLength_pos (i : Instr) : 0 < frameLength i := by
  cases i with
  | absorb n data =>
    show 0 < 4 + 8 + dataLength n
    omega
  | init | finalize | compress | illegal => exact Nat.zero_lt_succ 3

theorem byteStream_cons {i : Instr} {frame : List Byte} (h : encode i = some frame) (program : List Instr) :
    Assembler.byteStream (i :: program) = frame ++ Assembler.byteStream program := by
  simp [Assembler.byteStream, h]

/-- A frame at the front of a stream takes one unit of the fuel. -/
theorem decodeStreamAux_encode_append {i : Instr} {frame : List Byte} (hwf : i.wf = true) (h : encode i = some frame)
    {fuel : Nat} {rest : List Byte} {program : List Instr} (hrest : decodeStreamAux fuel rest = .ok program) :
    decodeStreamAux (fuel + 1) (frame ++ rest) = .ok (i :: program) := by
  have hlen : 0 < frame.length := by
    rw [length_of_encode hwf h]
    exact frameLength_pos i
  obtain ⟨b, bs, rfl⟩ := List.exists_cons_of_length_pos hlen
  have hfront : decode (b :: (bs ++ rest)) = .ok (i, rest) := decode_encode_append hwf h rest
  rw [List.cons_append, decodeStreamAux, hfront]
  simp only [hrest]

/-- Any fuel that covers the length of the stream is enough, by induction over the program. -/
theorem decodeStreamAux_byteStream {program : List Instr}
    (hprogram : ∀ i ∈ program, i.wf = true ∧ isHostCommand i = true) {fuel : Nat}
    (hfuel : (Assembler.byteStream program).length ≤ fuel) :
    decodeStreamAux fuel (Assembler.byteStream program) = .ok program := by
  induction program generalizing fuel with
  | nil => cases fuel <;> rfl
  | cons i program ih =>
    obtain ⟨⟨hwf, hhost⟩, hprogram⟩ := List.forall_mem_cons.mp hprogram
    obtain ⟨frame, henc⟩ := encode_isSome hhost
    have hlen := length_of_encode hwf henc
    have hpos := frameLength_pos i
    rw [byteStream_cons henc, List.length_append] at hfuel
    obtain ⟨fuel, rfl⟩ : ∃ k, fuel = k + 1 := ⟨fuel - 1, by omega⟩
    rw [byteStream_cons henc]
    exact decodeStreamAux_encode_append hwf henc (ih hprogram (by omega))

/-- Settles O50: the length of the stream is fuel enough (`decodeStreamAux_byteStream`). -/
theorem byteStreamDecodesToItsProgram : Obligations.ByteStreamDecodesToItsProgram :=
  fun _ hprogram => decodeStreamAux_byteStream hprogram le_rfl

end Sys2Proof.Machine
end

section
/-! Proofs on the assembler (30_encoding.md section 3). Its only check on data is `absorbInstr`; every parser puts
together instructions that passed it. -/

namespace Sys2Proof.Assembler

open Machine

/-- Instructions that the host can send: well formed, and none of them COMPRESS. -/
def IsProgram (program : List Instr) : Prop := ∀ i ∈ program, i.wf = true ∧ isHostCommand i = true

theorem isProgram_nil : IsProgram [] := by simp [IsProgram]

theorem IsProgram.append {p q : List Instr} (hp : IsProgram p) (hq : IsProgram q) : IsProgram (p ++ q) :=
  fun i hi => (List.mem_append.mp hi).elim (hp i) (hq i)

theorem IsProgram.repeatCommands {p : List Instr} (hp : IsProgram p) (k : Nat) : IsProgram (repeatCommands k p) := by
  intro i hi
  obtain ⟨q, hq, hiq⟩ := List.mem_flatten.mp hi
  rw [List.eq_of_mem_replicate hq] at hiq
  exact hp i hiq

theorem isProgram_init : IsProgram [.init] := by simp [IsProgram, Instr.wf, isHostCommand]

theorem isProgram_finalize : IsProgram [.finalize] := by simp [IsProgram, Instr.wf, isHostCommand]

/-- The check of R79: `ceil(n/8)` bytes, and a count that 64 bits hold. -/
theorem isProgram_absorbInstr {n : Nat} {bytes : List Byte} {i : Instr} (h : absorbInstr n bytes = some i) :
    IsProgram [i] := by
  unfold absorbInstr at h
  split at h
  · next hcheck =>
    cases h
    obtain ⟨hn, hlen⟩ := hcheck
    have hwf : (Instr.absorb (BitVec.ofNat 64 n) bytes).wf = true := by
      rw [wf_absorb_iff, dataLength, BitVec.toNat_ofNat, Nat.mod_eq_of_lt hn, hlen]
    simpa [IsProgram, isHostCommand] using hwf
  · cases h

theorem isProgram_digest {bytes : List Byte} {i : Instr} (h : absorbsInstr bytes = some i) :
    IsProgram [.init, i, .finalize] :=
  isProgram_init.append ((isProgram_absorbInstr h).append isProgram_finalize)

/-- One line, by its mnemonic. -/
theorem isProgram_parseLine {w : List Char} {ts rest : List Token} {is : List Instr}
    (h : parseLine w ts = some (is, rest)) : IsProgram is := by
  unfold parseLine at h
  split at h
  · cases h
    exact isProgram_init
  split at h
  · cases h
    exact isProgram_finalize
  split at h
  · split at h
    · simp only [Option.bind_eq_some_iff, Option.map_eq_some_iff] at h
      obtain ⟨n, -, bytes, -, i, hi, hout⟩ := h
      cases hout
      exact isProgram_absorbInstr hi
    · cases h
  split at h
  · split at h
    · simp only [Option.bind_eq_some_iff, Option.map_eq_some_iff] at h
      obtain ⟨bytes, -, i, hi, hout⟩ := h
      cases hout
      exact isProgram_absorbInstr hi
    · cases h
  split at h
  · split at h
    · simp only [Option.bind_eq_some_iff, Option.map_eq_some_iff] at h
      obtain ⟨message, -, salt, -, i, hi, hout⟩ := h
      cases hout
      exact isProgram_digest hi
    · simp only [Option.bind_eq_some_iff, Option.map_eq_some_iff] at h
      obtain ⟨message, -, i, hi, hout⟩ := h
      cases hout
      exact isProgram_digest hi
    · cases h
  · cases h

/-- The commands of a text or of a block, by induction on the fuel. -/
theorem isProgram_parseCommands {fuel : Nat} {ts rest : List Token} {is : List Instr}
    (h : parseCommands fuel ts = some (is, rest)) : IsProgram is := by
  induction fuel generalizing ts rest is with
  | zero => cases h
  | succ fuel ih =>
    match ts, h with
    | [], h | .closeBlock :: _, h =>
      cases h
      exact isProgram_nil
    | .newline :: ts, h => exact ih h
    | .quoted _ :: _, h | .comma :: _, h | .openBlock :: _, h => cases h
    | .word w :: ts, h =>
      unfold parseCommands at h
      split at h
      · split at h
        · obtain ⟨k, -, h⟩ := Option.bind_eq_some_iff.mp h
          split at h
          · next body hbody =>
            split at h
            · obtain ⟨tail, htail, hout⟩ := Option.map_eq_some_iff.mp h
              cases hout
              exact ((ih hbody).repeatCommands k).append (ih htail)
            · cases h
          · cases h
        · cases h
      · split at h
        · next hline =>
          split at h
          · obtain ⟨tail, htail, hout⟩ := Option.map_eq_some_iff.mp h
            cases hout
            exact (isProgram_parseLine hline).append (ih htail)
          · cases h
        · cases h

/-- Settles O49, by `isProgram_parseCommands`. -/
theorem assembledProgramsAreWellFormed : Obligations.AssembledProgramsAreWellFormed := by
  intro text program h
  obtain ⟨ts, -, h⟩ := Option.bind_eq_some_iff.mp h
  split at h
  · next hparse =>
    cases h
    exact isProgram_parseCommands hparse
  · cases h

end Sys2Proof.Assembler
end

section
/-! Proofs on the step (20_memory.md rule R59, 70_reset_and_hazards.md rules R230 and R231) and on the registers it reads
and writes. What a step that answers a next state has done is said once, in `step_next_cases`. -/

namespace Sys2Proof.Machine

/-! ### Which instruction a step performs -/

theorem step_idle {s : State} (h : s.inputs = []) : step s = .next s := by
  simp [step, fetch, h]

theorem decodeFrame_of_decodeTableWord {nbits w : Nat} {i : Instr} (h : decodeTableWord nbits w = some i) :
    decodeFrame (tableFrame nbits w) = .ok i := by
  unfold decodeTableWord at h
  split at h
  · next hd =>
    cases h
    exact hd
  · cases h

/-- Settles O8: the frame of a table word is sent first, so it is the oldest (`step_sendFirst`). -/
theorem stepRunsDecodedInstruction : Obligations.StepRunsDecodedInstruction :=
  ⟨fun _ _ _ _ hin hd => step_command hin hd,
    fun s _ _ _ h => step_sendFirst (decodeFrame_of_decodeTableWord h) s⟩

/-- Settles O9, by `step_idle` and the fields that `applyReset` leaves. -/
theorem waitingAndResetLeaveTheChannels : Obligations.WaitingAndResetLeaveTheChannels :=
  ⟨fun _ hin => step_idle hin, fun _ _ hin => ⟨_, step_reset hin, applyReset_inputs _, applyReset_responses _,
    applyReset_freeCount _, applyReset_compressions _, applyReset_refusalMark _⟩⟩

/-- Settles O7: the length check comes before the phase check. -/
theorem malformedAbsorbTermIsRefused : Obligations.MalformedAbsorbTermIsRefused :=
  fun s _ _ hlen => exec_absorb_malformed hlen s

/-- Settles O51: the meaning of the illegal class does not look at the word. -/
theorem illFormedIllegalTermRaisesTheSameError : Obligations.IllFormedIllegalTermRaisesTheSameError :=
  fun s w _ => exec_illegal w s

/-- A step that answers a next state: waiting, a reset, or a host command on the state without its frame. -/
theorem step_next_cases {s t : State} (h : step s = .next t) :
    t = s ∨ (∃ rest, t = applyReset { s with inputs := rest }) ∨
      ∃ i rest, isHostCommand i = true ∧ exec i { s with inputs := rest } = .next t := by
  obtain ⟨-, hs⟩ | ⟨rest, -, hs⟩ | ⟨frame, rest, i, -, hd, hs⟩ | ⟨frame, rest, why, -, -, hs⟩ := step_cases s
  · exact .inl (Host.Outcome.next.inj (h.symm.trans hs))
  · exact .inr (.inl ⟨rest, Host.Outcome.next.inj (h.symm.trans hs)⟩)
  · exact .inr (.inr ⟨i, rest, isHostCommand_of_decodeFrame hd, hs.symm.trans h⟩)
  · cases h.symm.trans hs

/-! ### Reset values and `STATUS` -/

/-- The state after power-on is one that a reset leaves. -/
theorem afterReset_reset : AfterReset State.reset := afterReset_applyReset State.reset

/-- Settles O11: the fields of `AfterReset`. -/
theorem resetStateHoldsSpecValues : Obligations.ResetStateHoldsSpecValues := by
  obtain ⟨hacc, hblock, hfill, hpos, htotal, hphase, hstatus⟩ := afterReset_reset
  exact ⟨hacc, hblock, hfill, hpos, htotal, hphase, hstatus⟩

theorem status_phase (s : State) : s.status.extractLsb' 0 2 = s.phase.bits := extract_low _ _

theorem status_reserved (s : State) : s.status.extractLsb' 4 3 = 0 := by
  rw [State.status, statusByte, extract_high _ _ _ _ (by decide), extract_high _ _ _ _ (by decide)]
  exact extract_low _ _

theorem status_err (s : State) : s.status.getLsbD 7 = s.err := by
  simp only [State.status, statusByte, BitVec.getLsbD_append]
  simp

/-- Settles O12, field by field. -/
theorem statusFieldsReadAsSpecified : Obligations.StatusFieldsReadAsSpecified := by
  intro s
  refine ⟨?phase, ?code, status_reserved s, status_err s⟩
  case phase =>
    rw [status_phase]
    cases s.phase <;> rfl
  case code =>
    rw [status_code]
    cases s.code <;> rfl

/-! ### R36 -/

theorem inv_of_phase_ne_active {s : State} (h : s.phase ≠ .active) : Inv s := fun hp => absurd hp h

theorem raiseError_inv {s : State} (h : Inv s) (c : Code) : Inv (raiseError c s) :=
  fun hp => bufferInv_congr (h hp) rfl rfl rfl rfl

theorem absorbCommand_inv {s : State} (h : Inv s) (align : PartialAlign) (n : BitCount) (data : List Byte) :
    Inv (absorbCommand align n data s) := by
  by_cases hp : s.phase = .active
  · rw [absorbCommand_active hp]
    exact fun _ => bufferInv_congr (absorbBits_bufferInv (h hp) align n data) rfl rfl rfl rfl
  · rw [absorbCommand_inactive hp]
    exact raiseError_inv h _

theorem finalizeCommand_inv {s : State} (h : Inv s) : Inv (finalizeCommand s) := by
  by_cases hp : s.phase = .active
  · refine inv_of_phase_ne_active ?_
    rw [finalizeCommand_phase, if_pos hp]
    decide
  · rw [finalizeCommand_inactive hp]
    exact raiseError_inv h _

/-- Every instruction keeps R36, COMPRESS too: it writes `ACC` only. -/
theorem exec_inv {i : Instr} {s t : State} (h : exec i s = .next t) (hs : Inv s) : Inv t := by
  cases i with
  | init =>
    cases h
    exact fun _ => (holds_initialized s).bufferInv
  | absorb n data =>
    obtain ⟨-, rfl⟩ := exec_absorb_next h
    exact absorbCommand_inv hs _ n data
  | finalize =>
    cases h
    exact finalizeCommand_inv hs
  | compress =>
    cases h
    exact fun hp => bufferInv_congr (hs hp) rfl rfl rfl rfl
  | illegal w =>
    cases h
    exact raiseError_inv hs _

/-- Settles O39: waiting changes nothing, a reset leaves `ACTIVE`, and a command keeps R36 (`exec_inv`). -/
theorem everyStepKeepsTheBufferInvariant : Obligations.EveryStepKeepsTheBufferInvariant := by
  intro s t hs h
  obtain rfl | ⟨rest, rfl⟩ | ⟨i, rest, -, h⟩ := step_next_cases h
  · exact hs
  · exact inv_of_phase_ne_active (by simp)
  · exact exec_inv h fun hp => bufferInv_congr (hs hp) rfl rfl rfl rfl

theorem AfterReset.inv {s : State} (h : AfterReset s) : Inv s := inv_of_phase_ne_active (by simp [h.phase])

/-- Settles O40: after a reset `PHASE` is `IDLE`. -/
theorem resetMeetsTheBufferInvariant : Obligations.ResetMeetsTheBufferInvariant :=
  ⟨afterReset_reset.inv, fun _ h => h.inv⟩

/-! ### The held message -/

/-- R151 for one step from `s` to `t`: `t` holds the empty message, or what `s` held, or that followed by the bits of an
`ABSORB`. -/
def MessageStep (s t : State) : Prop :=
  Holds [] t ∨ ∃ M, Holds M s ∧ (Holds M t ∨ ∃ n data, Holds (M ++ commandBits s.partialAlign n data) t)

/-- What changes no HashState register. -/
theorem MessageStep.of_same {s t : State} (h : HoldsSome s) (hp : s.phase = .active)
    (hsame : ∀ M, Holds M s → Holds M t) : MessageStep s t := by
  obtain ⟨M, H⟩ := h hp
  exact .inr ⟨M, H, .inl (hsame M H)⟩

/-- R151 for a host command that leads to `ACTIVE`. Of the two errors of phase, neither is raised in `ACTIVE`. -/
theorem exec_messageStep {i : Instr} {s t : State} (hi : isHostCommand i = true) (h : exec i s = .next t)
    (hs : HoldsSome s) (hp : t.phase = .active) : MessageStep s t := by
  cases i with
  | init =>
    cases h
    exact .inl (holds_initialized s)
  | absorb n data =>
    obtain ⟨-, rfl⟩ := exec_absorb_next h
    rw [absorbCommand_phase] at hp
    obtain ⟨M, H⟩ := hs hp
    exact .inr ⟨M, H, .inr ⟨n, data, (absorbCommand_absorbs hp s.partialAlign n data).holds M H⟩⟩
  | finalize =>
    cases h
    rw [finalizeCommand_phase] at hp
    split at hp
    · cases hp
    · next hne => exact absurd hp hne
  | compress => cases hi
  | illegal w =>
    cases h
    exact .of_same hs hp fun _ H => holds_congr H rfl rfl rfl rfl rfl

/-- Settles O41: waiting keeps the message, a reset leaves `ACTIVE`, and a command is `exec_messageStep`. -/
theorem everyStepKeepsAHeldMessage : Obligations.EveryStepKeepsAHeldMessage := by
  intro s t hs h hp
  obtain rfl | ⟨rest, rfl⟩ | ⟨i, rest, hi, h⟩ := step_next_cases h
  · exact MessageStep.of_same hs hp fun _ H => H
  · cases hp
  · have hfetched : ∀ M, Holds M { s with inputs := rest } ↔ Holds M s := fun M =>
      ⟨fun H => holds_congr H rfl rfl rfl rfl rfl, fun H => holds_congr H rfl rfl rfl rfl rfl⟩
    have hstep : MessageStep { s with inputs := rest } t :=
      exec_messageStep hi h (fun hp => by simpa only [hfetched] using hs hp) hp
    simpa only [MessageStep, hfetched] using hstep

/-! ### `ACC` -/

/-- From `s` to `t` either no COMPRESS ran and `ACC` is what it was, or the count has grown. -/
def AccByCompress (s t : State) : Prop :=
  (t.compressions = s.compressions ∧ t.acc = s.acc) ∨ s.compressions < t.compressions

theorem AccByCompress.trans {s t u : State} (h : AccByCompress s t) (h' : AccByCompress t u) :
    AccByCompress s u := by
  rcases h with ⟨hc, ha⟩ | hc <;> rcases h' with ⟨hc', ha'⟩ | hc'
  · exact .inl ⟨hc'.trans hc, ha'.trans ha⟩
  · exact .inr (by omega)
  · exact .inr (by omega)
  · exact .inr (by omega)

theorem runCompress_accByCompress (s : State) : AccByCompress s (runCompress s) := .inr (Nat.lt_succ_self _)

theorem compressIfFull_accByCompress (s : State) : AccByCompress s (compressIfFull s) := by
  unfold compressIfFull
  split
  · exact .inr (Nat.lt_succ_self _)
  · exact .inl ⟨rfl, rfl⟩

/-- Finishing a byte is all that a chunk does to `ACC`. -/
theorem finishByte_accByCompress (rem : Nat) (s : State) : AccByCompress s (finishByte rem s) :=
  compressIfFull_accByCompress { s with bytePos := s.bytePos + 1, fillBits := s.fillBits + BitVec.ofNat 10 (8 - rem) }

theorem residualBits_accByCompress (rem left : Nat) (b : Byte) (s : State) :
    AccByCompress s (residualBits rem left b s) := by
  unfold residualBits
  split
  · exact .inl ⟨rfl, rfl⟩
  split
  · exact .inl ⟨rfl, rfl⟩
  · exact finishByte_accByCompress rem (mergeHead rem b s)

theorem wholeChunks_accByCompress (rem : Nat) (c : Nat → Byte) (m : Nat) (s : State) :
    AccByCompress s (wholeChunks rem c m s) := by
  induction m with
  | zero => exact .inl ⟨rfl, rfl⟩
  | succ m ih => exact ih.trans (finishByte_accByCompress rem (mergeHead rem (c m) (wholeChunks rem c m s)))

theorem absorbBits_accByCompress (align : PartialAlign) (n : BitCount) (data : List Byte) (s : State) :
    AccByCompress s (absorbBits align n data s) := by
  have hchunks := wholeChunks_accByCompress (s.fillBits &&& 7).toNat (chunk align n data) (wholeCount n)
    { s with totalBits := tally s.totalBits n }
  exact AccByCompress.trans hchunks (residualBits_accByCompress _ _ _ _)

theorem makeRoom_accByCompress (s : State) : AccByCompress s (makeRoom s) := by
  unfold makeRoom
  split
  · exact .inr (Nat.lt_succ_self _)
  · exact .inl ⟨rfl, rfl⟩

theorem padAndCompress_accByCompress (s : State) : AccByCompress s (padAndCompress s) :=
  AccByCompress.trans (makeRoom_accByCompress (appendOneBit s)) (.inr (Nat.lt_succ_self _))

theorem absorbCommand_accByCompress (align : PartialAlign) (n : BitCount) (data : List Byte) (s : State) :
    AccByCompress s (absorbCommand align n data s) := by
  by_cases hp : s.phase = .active
  · rw [absorbCommand_active hp]
    exact absorbBits_accByCompress align n data s
  · rw [absorbCommand_inactive hp]
    exact .inl ⟨rfl, rfl⟩

theorem finalizeCommand_accByCompress (s : State) : AccByCompress s (finalizeCommand s) := by
  by_cases hp : s.phase = .active
  · rw [AccByCompress, finalizeCommand_acc hp, finalizeCommand_compressions hp]
    exact padAndCompress_accByCompress s
  · rw [finalizeCommand_inactive hp]
    exact .inl ⟨rfl, rfl⟩

theorem exec_accByCompress {i : Instr} {s t : State} (hi : i ≠ .init) (h : exec i s = .next t) :
    AccByCompress s t := by
  cases i with
  | init => exact absurd rfl hi
  | absorb n data =>
    obtain ⟨-, rfl⟩ := exec_absorb_next h
    exact absorbCommand_accByCompress _ n data s
  | finalize =>
    cases h
    exact finalizeCommand_accByCompress s
  | compress =>
    cases h
    exact runCompress_accByCompress s
  | illegal w =>
    cases h
    exact .inl ⟨rfl, rfl⟩

/-- Settles O43: the count has not grown, so no COMPRESS ran (`exec_accByCompress`). -/
theorem accIsWrittenOnlyByInitAndCompress : Obligations.AccIsWrittenOnlyByInitAndCompress := by
  intro i s t h hi hcount
  obtain ⟨-, hacc⟩ | hgrown := exec_accByCompress hi h
  · exact hacc
  · omega

end Sys2Proof.Machine
end

section
/-! Proofs on what is read of the HashState (10_state.md rules R36 and R37, 42_accumulator.md rule R155). Under the
invariants a HashState holds the valid bits of its block, counted from its own accumulator (`holdsFrom_validBits`); two
states that hold the same bits agree on every live register, and their padded blocks are equal. -/

namespace Sys2Proof.Machine

/-! ### An `ABSORB` within the block -/

/-- The bits of a command, by position. -/
theorem getD_commandBits (align : PartialAlign) (n : BitCount) (data : List Byte) {i : Nat} (h : i < n.toNat) :
    (commandBits align n data).getD i false = commandBit align n data i := by
  rw [List.getD_eq_getElem?_getD, commandBits, List.getElem?_map, List.getElem?_range h]
  rfl

/-- A valid bit of the block is a bit of the message that `validBits` is. -/
theorem getD_validBits (s : State) {i : Nat} (h : i < s.fillBits.toNat) :
    (validBits s).getD i false = blockBit s.block i := by
  rw [List.getD_eq_getElem?_getD, validBits, List.getElem?_map, List.getElem?_range h]
  rfl

/-- A byte of the block whose bits agree. -/
theorem get_eq_of_blockBit {a b : Block} {j : Fin 64} (h : ∀ i, i / 8 = j.val → blockBit a i = blockBit b i) :
    a.get j = b.get j := by
  apply byte_eq_of_bits
  intro k hk
  have hdiv : (8 * j.val + k) / 8 = j.val := by omega
  have hmod : (8 * j.val + k) % 8 = k := by omega
  have hbit := h (8 * j.val + k) hdiv
  rw [blockBit_eq _ _ (by omega), blockBit_eq _ _ (by omega)] at hbit
  simpa only [hdiv, hmod, Fin.eta] using hbit

/-- Settles O25: the block holds the old valid bits followed by those of the command (`absorbBits_holds`), and they are
fewer than 512. -/
theorem absorbWithinTheBlockFrame : Obligations.AbsorbWithinTheBlockFrame := by
  intro s t n data hinv hp hfits h
  obtain ⟨-, rfl⟩ := exec_absorb_next h
  obtain ⟨-, hfill, hcount⟩ := absorbBits_counters hinv.counters s.partialAlign n data
  obtain ⟨hacc, -, hpos, hbits, -⟩ := absorbBits_holds (holdsFrom_validBits hinv) s.partialAlign n data
  have hlen : (validBits s ++ commandBits s.partialAlign n data).length / 512 = 0 := by
    simp [commandBits]
    omega
  rw [Nat.mod_eq_of_lt hfits] at hfill
  rw [Nat.div_eq_of_lt hfits, Nat.add_zero] at hcount
  rw [hlen] at hacc
  rw [hfill] at hpos
  simp only [hfill, hlen, Nat.mul_zero, Nat.zero_add] at hbits
  have hold : ∀ i, i < s.fillBits.toNat →
      blockBit (absorbBits s.partialAlign n data s).block i = blockBit s.block i := by
    intro i hi
    rw [hbits i (by omega), List.getD_append _ _ _ _ (by simpa using hi), getD_validBits s hi]
  have hsb := hinv.byte_pos
  rw [absorbCommand_active hp]
  refine ⟨hacc, hcount, hfill, hpos, fun j hj => ?bytes, hold, fun i hi => ?added⟩
  case bytes => exact get_eq_of_blockBit fun i hi => hold i (by omega)
  case added =>
    rw [respondOk_block, hbits _ (by omega), List.getD_append_right _ _ _ _ (by simp), length_validBits,
      Nat.add_sub_cancel_left, getD_commandBits _ _ _ hi]

/-! ### The two alignments -/

/-- A chunk of whole bytes is the same under either alignment. -/
theorem chunk_wholeBytes (align align' : PartialAlign) {n : BitCount} (hn : n.toNat % 8 = 0) (data : List Byte)
    {k : Nat} (hk : k < dataLength n) : chunk align n data k = chunk align' n data k := by
  apply byte_eq_of_bits
  intro j hj
  rw [chunk_bit align n data hk hj, chunk_bit align' n data hk hj, commandBit_wholeBytes align hn,
    commandBit_wholeBytes align' hn]

theorem absorbCommand_wholeBytes (align align' : PartialAlign) {n : BitCount} (hn : n.toNat % 8 = 0)
    (data : List Byte) (s : State) : absorbCommand align n data s = absorbCommand align' n data s := by
  by_cases hp : s.phase = .active
  · rw [absorbCommand_active hp, absorbCommand_active hp,
      absorbBits_congr fun _ hk => chunk_wholeBytes align align' hn data hk]
  · rw [absorbCommand_inactive hp, absorbCommand_inactive hp]

/-- An `ABSORB`, its alignment given, on another parameter and other responses. -/
theorem absorbCommand_aside (a : PartialAlign) (rs : List Response) (align : PartialAlign) (n : BitCount)
    (data : List Byte) (s : State) :
    absorbCommand align n data (s.aside a rs) = (absorbCommand align n data s).aside a
      (rs ++ [{ code := (absorbCommand align n data s).code, digest := none }]) := by
  by_cases hp : s.phase = .active
  · rw [absorbCommand_active hp, absorbCommand_active (s := s.aside a rs) hp, absorbBits_aside]
    rfl
  · rw [absorbCommand_inactive hp, absorbCommand_inactive (s := s.aside a rs) hp]
    rfl

/-- Settles O27: the bits are those of the data (`commandBits_wholeBytes`), the command is the same under either
alignment (`absorbCommand_wholeBytes`), and it passes the parameter on as it is (`absorbCommand_aside`). -/
theorem alignmentsAgreeOnWholeBytes : Obligations.AlignmentsAgreeOnWholeBytes := by
  intro s n data hn hlen
  have hbytes : n.toNat = 8 * data.length := by omega
  obtain ⟨t, ht⟩ : ∃ t : State, ∀ align, exec (.absorb n data) { s with partialAlign := align }
      = .next { t with partialAlign := align } := by
    refine ⟨(absorbCommand .left n data s).aside .left
      (s.responses ++ [{ code := (absorbCommand .left n data s).code, digest := none }]), fun align => ?_⟩
    show exec (.absorb n data) (s.aside align s.responses) = _
    rw [exec_absorb hlen, aside_partialAlign, absorbCommand_wholeBytes align .left hn, absorbCommand_aside]
    rfl
  exact ⟨commandBits_wholeBytes _ hbytes, commandBits_wholeBytes _ hbytes, t, ht .left, ht .right⟩

/-! ### States that hold the same bits -/

/-- Two HashStates that hold the same bits from the same accumulator agree on every live register. -/
theorem HoldsFrom.unique {h : Words} {M : List Bool} {s t : State} (H : HoldsFrom h M s) (H' : HoldsFrom h M t) :
    s.acc = t.acc ∧ s.fillBits = t.fillBits ∧ s.bytePos = t.bytePos ∧
      ∀ j : Fin 64, j.val ≤ s.bytePos.toNat → s.block.get j = t.block.get j := by
  have hfill : s.fillBits.toNat = t.fillBits.toNat := H.fill.trans H'.fill.symm
  have hpos : s.bytePos.toNat = t.bytePos.toNat := by rw [H.byte_pos, H'.byte_pos, hfill]
  refine ⟨H.acc.trans H'.acc.symm, BitVec.eq_of_toNat_eq hfill, BitVec.eq_of_toNat_eq hpos, fun j hj => ?byte⟩
  case byte =>
    have hsb := H.byte_pos
    refine get_eq_of_blockBit fun i hi => ?_
    by_cases hvalid : i < s.fillBits.toNat
    · rw [H.bits i hvalid, H'.bits i (by omega)]
    · rw [H.clean i (by omega) (by omega), H'.clean i (by omega) (by omega)]

/-- The block of step 1 and a zero fill up to byte `hi`, as far as the fill goes (R172 to R174). -/
theorem blockBit_padOne_congr {h : Words} {M : List Bool} {s t : State} (H : HoldsFrom h M s) (H' : HoldsFrom h M t)
    {hi i : Nat} (hi64 : 8 * hi ≤ 512) (hlt : i < 8 * hi) :
    blockBit (zeroFill (appendOneBit s).block (s.bytePos.toNat + 1) hi) i
      = blockBit (zeroFill (appendOneBit t).block (t.bytePos.toNat + 1) hi) i := by
  rw [blockBit_padOne H hi64 hlt, blockBit_padOne H' hi64 hlt, H.fill, H'.fill]

/-- The padding compresses the same blocks, whatever the stale bytes were: it overwrites them all. -/
theorem padAndCompress_acc_congr {h : Words} {M : List Bool} {s t : State} (H : HoldsFrom h M s)
    (H' : HoldsFrom h M t) (htotal : s.totalBits = t.totalBits) : (padAndCompress s).acc = (padAndCompress t).acc := by
  obtain ⟨hacc, -, hpos, -⟩ := H.unique H'
  have hroom := congrArg BitVec.toNat hpos
  obtain ⟨hsmall, -, hs⟩ | ⟨hbig, -, hs⟩ := padAndCompress_cases H.counters
  · have hblock : writeLength (zeroFill (appendOneBit s).block (s.bytePos.toNat + 1) 32) s.totalBits
        = writeLength (zeroFill (appendOneBit t).block (t.bytePos.toNat + 1) 32) t.totalBits := by
      refine block_eq_of_bits fun i hi => ?_
      rw [blockBit_writeLength _ _ hi, blockBit_writeLength _ _ hi, htotal]
      split
      · rfl
      · exact blockBit_padOne_congr H H' (by decide) (by omega)
    obtain ⟨-, -, ht⟩ | ⟨hbig, -, -⟩ := padAndCompress_cases H'.counters
    · rw [hs, ht, hacc, hblock]
    · omega
  · have hblock : zeroFill (appendOneBit s).block (s.bytePos.toNat + 1) 64
        = zeroFill (appendOneBit t).block (t.bytePos.toNat + 1) 64 :=
      block_eq_of_bits fun i hi => blockBit_padOne_congr H H' (by decide) hi
    obtain ⟨hsmall, -, -⟩ | ⟨-, -, ht⟩ := padAndCompress_cases H'.counters
    · omega
    · rw [hs, ht, hacc, hblock, htotal]

/-! ### States that agree on what is live -/

/-- The bits of the current byte and of those before it are live. -/
theorem SameLiveState.blockBit_eq {s t : State} (h : SameLiveState s t) (hp : s.phase = .active) {i : Nat}
    (hi : i < 512) (hlive : i / 8 ≤ s.bytePos.toNat) : blockBit t.block i = blockBit s.block i := by
  rw [Machine.blockBit_eq _ _ hi, Machine.blockBit_eq _ _ hi, h.block hp ⟨i / 8, by omega⟩ hlive]

/-- The second state holds the valid bits of the first. -/
theorem SameLiveState.holdsFrom {s t : State} (h : SameLiveState s t) (hp : s.phase = .active) (hinv : BufferInv s) :
    HoldsFrom s.acc (validBits s) t := by
  obtain ⟨hacc, hfill, hpos, hbits, hclean⟩ := holdsFrom_validBits hinv
  have hsf := hinv.fill_lt
  have hsb := hinv.byte_pos
  rw [h.fillBits hp] at hfill hpos hbits hclean
  rw [h.bytePos hp] at hpos hclean
  rw [h.fillBits hp] at hsf hsb
  have hlive : ∀ i, i / 8 ≤ t.bytePos.toNat → i < 512 → blockBit t.block i = blockBit s.block i := fun i hi hi512 =>
    h.blockBit_eq hp hi512 (by rw [h.bytePos hp]; exact hi)
  exact
    { acc := (h.acc hp).symm.trans hacc
      fill := hfill
      byte_pos := hpos
      bits := fun i hi => by rw [hlive i (by omega) (by omega), hbits i hi]
      clean := fun i hi hi8 => by rw [hlive i (by omega) (by omega), hclean i hi hi8] }

/-- Outside `ACTIVE` there is nothing to agree on but `STATUS`, the parameter and the channels. -/
theorem SameLiveState.of_inactive {s t : State} (hs : s.phase ≠ .active) (phase : s.phase = t.phase)
    (code : s.code = t.code) (err : s.err = t.err) (align : s.partialAlign = t.partialAlign)
    (inputs : s.inputs = t.inputs) (responses : s.responses = t.responses) : SameLiveState s t :=
  ⟨phase, code, err, align, inputs, responses, fun h => absurd h hs, fun h => absurd h hs, fun h => absurd h hs,
    fun h => absurd h hs, fun h => absurd h hs⟩

theorem SameLiveState.fetched {s t : State} (h : SameLiveState s t) (rest : List HostInput) :
    SameLiveState { s with inputs := rest } { t with inputs := rest } :=
  { h with inputs := rfl }

theorem SameLiveState.raiseError {s t : State} (h : SameLiveState s t) (c : Code) :
    SameLiveState (raiseError c s) (raiseError c t) :=
  { h with code := rfl, err := rfl, responses := by simp [h.responses] }

theorem SameLiveState.applyReset {s t : State} (h : SameLiveState s t) :
    SameLiveState (applyReset s) (applyReset t) :=
  .of_inactive (by simp) rfl rfl rfl h.align h.inputs h.responses

theorem SameLiveState.initialized {s t : State} (h : SameLiveState s t) :
    SameLiveState (initialized s) (initialized t) where
  phase := rfl
  code := rfl
  err := h.err
  align := h.align
  inputs := h.inputs
  responses := by simp [h.responses]
  acc _ := rfl
  fillBits _ := rfl
  bytePos _ := rfl
  totalBits _ := rfl
  block _ _ _ := rfl

theorem SameLiveState.absorbBits {s t : State} (h : SameLiveState s t) (hp : s.phase = .active) (hinv : BufferInv s)
    (align : PartialAlign) (n : BitCount) (data : List Byte) :
    SameLiveState (absorbBits align n data s) (absorbBits align n data t) := by
  have hs := absorbBits_sameControl align n data s
  have ht := absorbBits_sameControl align n data t
  obtain ⟨hacc, hfill, hpos, hblock⟩ := (absorbBits_holds (holdsFrom_validBits hinv) align n data).unique
    (absorbBits_holds (h.holdsFrom hp hinv) align n data)
  exact
    { phase := by rw [hs.phase, ht.phase, h.phase]
      code := by rw [hs.code, ht.code, h.code]
      err := by rw [hs.err, ht.err, h.err]
      align := by rw [hs.partialAlign, ht.partialAlign, h.align]
      inputs := by rw [hs.inputs, ht.inputs, h.inputs]
      responses := by rw [hs.responses, ht.responses, h.responses]
      acc := fun _ => hacc
      fillBits := fun _ => hfill
      bytePos := fun _ => hpos
      totalBits := fun _ => by rw [hs.totalBits, ht.totalBits, h.totalBits hp]
      block := fun _ => hblock }

theorem SameLiveState.absorbCommand {s t : State} (h : SameLiveState s t) (hinv : Inv s) (align : PartialAlign)
    (n : BitCount) (data : List Byte) :
    SameLiveState (absorbCommand align n data s) (absorbCommand align n data t) := by
  by_cases hp : s.phase = .active
  · rw [absorbCommand_active hp, absorbCommand_active (h.phase ▸ hp)]
    have hbits := h.absorbBits hp (hinv hp) align n data
    exact { hbits with code := rfl, responses := by simp [hbits.responses] }
  · rw [absorbCommand_inactive hp, absorbCommand_inactive (h.phase ▸ hp)]
    exact h.raiseError _

/-- Both return the same digest, and what `FINALIZE` leaves unspecified is not live. -/
theorem SameLiveState.finalizeCommand {s t : State} (h : SameLiveState s t) (hinv : Inv s) :
    SameLiveState (finalizeCommand s) (finalizeCommand t) := by
  by_cases hp : s.phase = .active
  · have hs := padAndCompress_sameControl s
    have ht := padAndCompress_sameControl t
    have hacc : (padAndCompress s).acc = (padAndCompress t).acc := padAndCompress_acc_congr
      (holdsFrom_validBits (hinv hp)) (h.holdsFrom hp (hinv hp)) (h.totalBits hp)
    rw [finalizeCommand_active hp, finalizeCommand_active (h.phase ▸ hp)]
    refine .of_inactive (by simp) ?phase ?code ?err ?align ?inputs ?responses
    case phase => simp
    case code => simp
    case err => simp [hs.err, ht.err, h.err]
    case align => simp [hs.partialAlign, ht.partialAlign, h.align]
    case inputs => simp [hs.inputs, ht.inputs, h.inputs]
    case responses => simp [hs.responses, ht.responses, h.responses, hacc]
  · rw [finalizeCommand_inactive hp, finalizeCommand_inactive (h.phase ▸ hp)]
    exact h.raiseError _

/-- A host command answers two states that agree on what is live with two such states. -/
theorem SameLiveState.exec {i : Instr} {s t s' : State} (h : SameLiveState s t) (hinv : Inv s)
    (hi : isHostCommand i = true) (hs : exec i s = .next s') : ∃ t', exec i t = .next t' ∧ SameLiveState s' t' := by
  cases i with
  | init =>
    cases hs
    exact ⟨_, exec_init_eq t, h.initialized⟩
  | absorb n data =>
    obtain ⟨hlen, rfl⟩ := exec_absorb_next hs
    refine ⟨_, exec_absorb hlen t, ?_⟩
    rw [← h.align]
    exact h.absorbCommand hinv _ n data
  | finalize =>
    cases hs
    exact ⟨_, exec_finalize t, h.finalizeCommand hinv⟩
  | compress => cases hi
  | illegal w =>
    cases hs
    exact ⟨_, exec_illegal w t, h.raiseError _⟩

/-- Settles O44, by the four things a step can do. Both states have the same inputs, so both do the same thing; a decoded
command is never refused, and `SameLiveState.exec` says what it answers. -/
theorem onlyLiveStateIsEverRead : Obligations.OnlyLiveStateIsEverRead := by
  intro s t h hinv
  have hinv' : ∀ rest, Inv { s with inputs := rest } := fun _ hp => bufferInv_congr (hinv hp) rfl rfl rfl rfl
  have hin' := h.inputs
  obtain ⟨hin, hs⟩ | ⟨rest, hin, hs⟩ | ⟨frame, rest, i, hin, hd, hs⟩ | ⟨frame, rest, why, hin, hd, hs⟩ := step_cases s
  · rw [hs]
    refine ⟨?_, nofun⟩
    rintro _ ⟨⟩
    exact ⟨t, step_idle (hin'.symm.trans hin), h⟩
  · rw [hs]
    refine ⟨?_, nofun⟩
    rintro _ ⟨⟩
    exact ⟨_, step_reset (hin'.symm.trans hin), (h.fetched rest).applyReset⟩
  · obtain ⟨u, hu⟩ := exec_of_decodeFrame hd { s with inputs := rest }
    obtain ⟨v, hv, hlive⟩ := (h.fetched rest).exec (hinv' rest) (isHostCommand_of_decodeFrame hd) hu
    rw [hs, hu]
    refine ⟨?_, nofun⟩
    rintro _ ⟨⟩
    exact ⟨v, (step_command (hin'.symm.trans hin) hd).trans hv, hlive⟩
  · rw [hs]
    refine ⟨nofun, ?_⟩
    rintro _ ⟨⟩
    exact step_malformed (hin'.symm.trans hin) hd

end Sys2Proof.Machine
end

section
/-! Proofs on runs (70_reset_and_hazards.md rules R242 and R243). A command answers one response, whatever was returned
before it, and leaves the channel of inputs, the refusal mark and the parameter alone; each is carried along the run by
induction over its frames. -/

namespace Sys2Proof.Machine

/-! ### What no instruction writes -/

/-- The parameter, what is still to be taken and the refusal mark. -/
structure SameSetup (s t : State) : Prop where
  partialAlign : t.partialAlign = s.partialAlign
  inputs       : t.inputs = s.inputs
  refusalMark  : t.refusalMark = s.refusalMark

theorem SameControl.sameSetup {s t : State} (h : SameControl s t) : SameSetup s t :=
  ⟨h.partialAlign, h.inputs, h.refusalMark⟩

theorem raiseError_sameSetup (c : Code) (s : State) : SameSetup s (raiseError c s) := ⟨rfl, rfl, rfl⟩

theorem absorbCommand_sameSetup (align : PartialAlign) (n : BitCount) (data : List Byte) (s : State) :
    SameSetup s (absorbCommand align n data s) := by
  by_cases hp : s.phase = .active
  · obtain ⟨halign, hin, hmark⟩ := (absorbBits_sameControl align n data s).sameSetup
    rw [absorbCommand_active hp]
    exact ⟨halign, hin, hmark⟩
  · rw [absorbCommand_inactive hp]
    exact raiseError_sameSetup _ s

theorem finalizeCommand_sameSetup (s : State) : SameSetup s (finalizeCommand s) := by
  by_cases hp : s.phase = .active
  · obtain ⟨halign, hin, hmark⟩ := (padAndCompress_sameControl s).sameSetup
    rw [finalizeCommand_active hp]
    exact ⟨halign, hin, hmark⟩
  · rw [finalizeCommand_inactive hp]
    exact raiseError_sameSetup _ s

theorem exec_sameSetup {i : Instr} {s t : State} (h : exec i s = .next t) : SameSetup s t := by
  cases i with
  | init =>
    cases h
    exact ⟨rfl, rfl, rfl⟩
  | absorb n data =>
    obtain ⟨-, rfl⟩ := exec_absorb_next h
    exact absorbCommand_sameSetup _ n data s
  | finalize =>
    cases h
    exact finalizeCommand_sameSetup s
  | compress =>
    cases h
    exact ⟨rfl, rfl, rfl⟩
  | illegal w =>
    cases h
    exact raiseError_sameSetup _ s

theorem step_partialAlign {s t : State} (h : step s = .next t) : t.partialAlign = s.partialAlign := by
  obtain rfl | ⟨rest, rfl⟩ | ⟨i, rest, -, h⟩ := step_next_cases h
  · rfl
  · rfl
  · exact (exec_sameSetup h).partialAlign

theorem runFrames_partialAlign (frames : List (List Byte)) (s : State) :
    (runFrames frames s).partialAlign = s.partialAlign :=
  runFrames_keeps (P := fun t => t.partialAlign = s.partialAlign)
    (fun _ h hs => (exec_sameSetup h).partialAlign.trans hs) (fun hs => hs) frames rfl

/-- Settles O52, by `exec_sameSetup` for one instruction, one step and, along a run, every frame. -/
theorem noStepWritesTheParameter : Obligations.NoStepWritesTheParameter :=
  ⟨fun _ _ _ h => (exec_sameSetup h).partialAlign, fun _ _ h => step_partialAlign h, runFrames_partialAlign, rfl⟩

/-! ### Responses and the refusal mark -/

/-- Settles O45, by induction over the frames: each decodes to a host command, which returns one response
(`exec_responds`) and leaves the rest alone (`exec_sameSetup`). -/
theorem runAnswersEveryWellFormedFrame : Obligations.RunAnswersEveryWellFormedFrame := by
  intro frames s hframes
  induction frames generalizing s with
  | nil => exact ⟨[], by simp [runFrames], rfl, rfl, rfl⟩
  | cons frame frames ih =>
    obtain ⟨⟨i, hd⟩, hframes⟩ := List.forall_mem_cons.mp hframes
    obtain ⟨t, ht⟩ := exec_of_decodeFrame hd s
    obtain ⟨r, hr, -, -⟩ := exec_responds (isHostCommand_of_decodeFrame hd) ht
    obtain ⟨-, hin, hmark⟩ := exec_sameSetup ht
    obtain ⟨rs, hrs, hlen, hin', hmark'⟩ := ih t hframes
    rw [runFrames_cons_ok hd ht]
    exact ⟨r :: rs, by simp [hrs, hr], by simp [hlen], hin'.trans hin, hmark'.trans hmark⟩

/-- Settles O46, by induction over the frames: a decoded one leaves the mark (`exec_sameSetup`), a refused one sets
it. -/
theorem refusalMarkIsSetAndKept : Obligations.RefusalMarkIsSetAndKept := by
  intro frames s
  induction frames generalizing s with
  | nil => simp [runFrames]
  | cons frame frames ih =>
    cases hd : decodeFrame frame with
    | ok i =>
      obtain ⟨t, ht⟩ := exec_of_decodeFrame hd s
      rw [runFrames_cons_ok hd ht, ih t, (exec_sameSetup ht).refusalMark]
      simp [hd]
    | error why =>
      rw [runFrames_cons_error hd, ih]
      simp [hd]

/-! ### Earlier responses -/

/-- Other responses alone, the parameter set to what it is. -/
theorem aside_of_partialAlign {a : PartialAlign} {s : State} (h : s.partialAlign = a) (rs : List Response) :
    s.aside a rs = { s with responses := rs } := by
  subst h
  rfl

/-- `FINALIZE` after other responses. -/
theorem finalizeCommand_earlier (s : State) : ∃ r, ∀ earlier,
    finalizeCommand { s with responses := earlier } = { finalizeCommand s with responses := earlier ++ [r] } := by
  by_cases hp : s.phase = .active
  · refine ⟨{ code := .ok, digest := some (digestBytes (padAndCompress s).acc) }, fun earlier => ?_⟩
    have hpad : padAndCompress { s with responses := earlier } = { padAndCompress s with responses := earlier } :=
      (padAndCompress_aside s.partialAlign earlier s).trans
        (aside_of_partialAlign (padAndCompress_sameControl s).partialAlign _)
    rw [finalizeCommand_active hp, finalizeCommand_active (s := { s with responses := earlier }) hp, hpad]
    rfl
  · refine ⟨{ code := .errInvalidState, digest := none }, fun earlier => ?_⟩
    rw [finalizeCommand_inactive hp, finalizeCommand_inactive (s := { s with responses := earlier }) hp]
    rfl

theorem absorbCommand_earlier (n : BitCount) (data : List Byte) (s : State) : ∃ r, ∀ earlier,
    absorbCommand s.partialAlign n data { s with responses := earlier }
      = { absorbCommand s.partialAlign n data s with responses := earlier ++ [r] } := by
  refine ⟨{ code := (absorbCommand s.partialAlign n data s).code, digest := none }, fun earlier => ?_⟩
  have halign := (absorbCommand_sameSetup s.partialAlign n data s).partialAlign
  exact (absorbCommand_aside s.partialAlign earlier s.partialAlign n data s).trans (aside_of_partialAlign halign _)

/-- A command returns its response whatever was returned before it. -/
theorem exec_earlier {i : Instr} {s t : State} (hi : isHostCommand i = true) (h : exec i s = .next t) :
    ∃ r, ∀ earlier, exec i { s with responses := earlier } = .next { t with responses := earlier ++ [r] } := by
  cases i with
  | init =>
    cases h
    exact ⟨_, fun _ => rfl⟩
  | absorb n data =>
    obtain ⟨hlen, rfl⟩ := exec_absorb_next h
    obtain ⟨r, hr⟩ := absorbCommand_earlier n data s
    exact ⟨r, fun earlier => (exec_absorb hlen _).trans (congrArg _ (hr earlier))⟩
  | finalize =>
    cases h
    obtain ⟨r, hr⟩ := finalizeCommand_earlier s
    exact ⟨r, fun earlier => (exec_finalize _).trans (congrArg _ (hr earlier))⟩
  | compress => cases hi
  | illegal w =>
    cases h
    exact ⟨_, fun _ => rfl⟩

/-- A run appends its own responses, refused frames or not, and they do not depend on those before the launch. -/
theorem runFrames_earlier (frames : List (List Byte)) (s : State) : ∃ rs, ∀ earlier,
    runFrames frames { s with responses := earlier } = { runFrames frames s with responses := earlier ++ rs } := by
  induction frames generalizing s with
  | nil => exact ⟨[], fun earlier => by simp [runFrames]⟩
  | cons frame frames ih =>
    cases hd : decodeFrame frame with
    | ok i =>
      obtain ⟨t, ht⟩ := exec_of_decodeFrame hd s
      obtain ⟨r, hr⟩ := exec_earlier (isHostCommand_of_decodeFrame hd) ht
      obtain ⟨rs, hrs⟩ := ih t
      refine ⟨r :: rs, fun earlier => ?_⟩
      rw [runFrames_cons_ok hd (hr earlier), runFrames_cons_ok hd ht, hrs, List.append_assoc, List.singleton_append]
    | error why =>
      obtain ⟨rs, hrs⟩ := ih { s with refusalMark := true }
      refine ⟨rs, fun earlier => ?_⟩
      rw [runFrames_cons_error hd, runFrames_cons_error hd]
      exact hrs earlier

/-- Settles O53: the responses of the run are those that `runFrames_earlier` gives, from the launch state itself and from
the launch state with other responses. -/
theorem observationIsTheRunsOwnResponsesAndFinalStatus :
    Obligations.ObservationIsTheRunsOwnResponsesAndFinalStatus := by
  refine ⟨fun s frames => ⟨?own, rfl⟩, fun s frames hframes => ?count, fun s earlier frames => ?earlier⟩
  case own =>
    obtain ⟨rs, hrs⟩ := runFrames_earlier frames s
    have hown : (runFrames frames s).responses = s.responses ++ rs := congrArg State.responses (hrs s.responses)
    rw [observe_responses hown, hown]
  case count =>
    obtain ⟨rs, hrs, hlen, -, -⟩ := runAnswersEveryWellFormedFrame frames s hframes
    rw [observe_responses hrs, hlen]
  case earlier =>
    obtain ⟨rs, hrs⟩ := runFrames_earlier frames s
    have hown : (runFrames frames s).responses = s.responses ++ rs := congrArg State.responses (hrs s.responses)
    rw [observe, observe, hrs, hown, List.drop_left, List.drop_left]
    rfl

/-! ### The digest run -/

theorem finalizeCommand_err {s : State} (hp : s.phase = .active) : (finalizeCommand s).err = s.err := by
  rw [finalizeCommand_active hp]
  exact (padAndCompress_sameControl s).err

/-- The status after a `FINALIZE` that ends with `OK` (R27, R178). -/
theorem finalizeCommand_status {s : State} (hp : s.phase = .active) :
    (finalizeCommand s).status = statusByte .finalized .ok s.err := by
  rw [State.status, finalizeCommand_phase, if_pos hp, finalizeCommand_code, if_pos hp, finalizeCommand_err hp]

theorem runProgram_digestProgram_status (pieces : List (BitCount × List Byte)) (s : State)
    (hwf : ∀ p ∈ pieces, p.2.length = dataLength p.1) :
    (runProgram (digestProgram pieces) s).status = statusByte .finalized .ok s.err := by
  have hrun := runProgram_init_absorbs pieces s hwf
  rw [digestProgram, runProgram_append, runProgram_finalize, runProgram_nil, finalizeCommand_status hrun.phase,
    hrun.err, initialized_err]

/-- Settles O47: the responses and the final state of the run `INIT`, `ABSORB`s, `FINALIZE`, whose `ABSORB`s are taken by
induction in `runProgram_absorbs`. -/
theorem digestRunReturnsTheMessageDigest : Obligations.DigestRunReturnsTheMessageDigest :=
  fun s pieces hwf => ⟨digestValue_digestProgram pieces s hwf,
    observe_responses (runProgram_digestProgram_responses pieces s hwf), runProgram_digestProgram_status pieces s hwf⟩

end Sys2Proof.Machine
end

section
/-! The S-box is a permutation (40_constant_tables.md section 2), by its construction from the mini-boxes (R102): the
mini-box `E` undoes `Einv`, and the middle value is the same from either side, since it cancels out of the sum of the two
halves. -/

namespace Sys2Proof.Machine

theorem miniE_miniEinv : ∀ u : BitVec 4, miniE (miniEinv u) = u := by decide

/-- The construction of R102 run backwards. -/
def sboxInverse (y : Byte) : Byte :=
  let a := miniEinv (y.extractLsb' 4 4)
  let b := miniE (y.extractLsb' 0 4)
  let t := miniR (a ^^^ b)
  miniEinv (a ^^^ t) ++ miniE (b ^^^ t)

theorem halves_append (y : Byte) : y.extractLsb' 4 4 ++ y.extractLsb' 0 4 = y := by
  rw [extract_append_extract y 0 4 4]
  exact BitVec.extractLsb'_eq_self

theorem upperHalf_append (a b : BitVec 4) : (a ++ b).extractLsb' 4 4 = a := by
  rw [extract_high _ _ _ _ le_rfl]
  exact BitVec.extractLsb'_eq_self

theorem xor_cancel_middle (a b t : BitVec 4) : a ^^^ t ^^^ (b ^^^ t) = a ^^^ b := by
  rw [BitVec.xor_comm b t, BitVec.xor_assoc, ← BitVec.xor_assoc t t b, BitVec.xor_self, BitVec.zero_xor]

theorem xor_xor_cancel (a t : BitVec 4) : a ^^^ t ^^^ t = a := by
  rw [BitVec.xor_assoc, BitVec.xor_self, BitVec.xor_zero]

theorem sboxInverse_sbox (x : Byte) : sboxInverse (sbox x) = x := by
  simp only [sbox_eq_sboxFromMini, sboxInverse, sboxFromMini, upperHalf_append, extract_low, miniEinv_miniE,
    miniE_miniEinv, xor_cancel_middle, xor_xor_cancel, halves_append]

theorem sbox_sboxInverse (y : Byte) : sbox (sboxInverse y) = y := by
  simp only [sbox_eq_sboxFromMini, sboxInverse, sboxFromMini, upperHalf_append, extract_low, miniEinv_miniE,
    miniE_miniEinv, xor_cancel_middle, xor_xor_cancel, halves_append]

/-- Settles O31: `sboxInverse` is the inverse on either side. -/
theorem sboxIsAPermutation : Obligations.SboxIsAPermutation := by
  intro y
  refine ⟨sboxInverse y, sbox_sboxInverse y, ?_⟩
  rintro x rfl
  exact (sboxInverse_sbox x).symm

end Sys2Proof.Machine
end
